-- ==== Sys2Proof/Word.lean ====
section
/-! DEFINITION. The word, character and text types of the block, and the sign bit of a word. -/

namespace Sys2Proof

/-- `XLEN` of R7: the width of every register, memory word and immediate. -/
abbrev xlen : Nat := 32

/-- An unsigned value of `XLEN` bits (R8). The width is written out here alone, so that arithmetic on words sees a
numeral; `word_width` says that it is `XLEN`. -/
abbrev Word := BitVec 32

theorem word_width : Word = BitVec xlen := rfl

/-- One 8-bit character of a line, read as ASCII (R61). -/
abbrev Chr := BitVec 8

/-- A string of R8: a finite sequence of characters. -/
abbrev Text := List Chr

/-- The character code of an ASCII character literal (R61). -/
def ch (c : Char) : Chr := BitVec.ofNat 8 c.toNat

/-- A text written as a Lean string literal of ASCII characters (R61). -/
def ascii (s : String) : Text := s.toList.map ch

/-- The most significant bit of a word, its sign bit (R8). -/
def signBit (w : Word) : Bool := w.getLsbD (xlen - 1)

end Sys2Proof
end

