-- ==== Sys2Proof/Syntax.lean ====
section
/-! DEFINITION. The decoded form of a line: condition codes, operation kinds, Operand-2, the instruction
record of R28, and `Instr`, one constructor per row of the opcode table. -/

namespace Sys2Proof

/-- The condition field of a record, in the source's order of listing (R28, R66). -/
inductive Cond where
  | al | eq | ne | gt | ge | lt | le
deriving DecidableEq, Repr

/-- The closed enumeration of fifteen operation kinds (R28). -/
inductive Kind where
  | nop | invalid | add | sub | and | orr | eor | mvn | lsl | lsr | mov | ldr | str | cmp | b
deriving DecidableEq, Repr

/-- A register index field of a record: `none` is the index -1 (operand absent or no register), `some i` the
decimal number written in the token, which may be 12 or more (R28, R73). -/
abbrev RegIdx := Option Nat

/-- Operand-2, a tagged union with exactly one variant active (R29). -/
inductive Op2 where
  | unset
  | imm (v : Word)
  | reg (i : Nat)
deriving DecidableEq, Repr

/-- The instruction record produced by decoding, field for field (R28). `label` is the source's one label field;
`tlabel` is the second field of `LABEL_FIELDS = separate` (R93). Under `shared` the model also notes the branch
operand in `tlabel`, so that a branch without an operand can be told from one with (assumption log 3). -/
structure InstrRecord where
  kind     : Kind
  raw      : Text
  cond     : Cond
  sflag    : Bool
  label    : Option Text
  tlabel   : Option Text
  hasLabel : Bool
  rd       : RegIdx
  rn       : RegIdx
  op2      : Op2
  target   : Option Nat
deriving DecidableEq, Repr

/-- One constructor per row of the opcode table. `c` is the condition field, `f` the flag-update indicator.
The row `BEQ` is the record of kind `B` with condition `EQ`, so it has no condition argument of its own. `CMP` has
no indicator argument: the decoder forces it true (R78). The optional text of a branch is its target label name,
the optional number its resolved target (R30). `hasLabel` of `invalid` tells a label-only line (R207) from the
record of R206. -/
inductive Instr where
  | nop     (c : Cond) (f : Bool)
  | invalid (hasLabel : Bool) (c : Cond)
  | add     (c : Cond) (f : Bool) (rd rn : RegIdx) (op2 : Op2)
  | sub     (c : Cond) (f : Bool) (rd rn : RegIdx) (op2 : Op2)
  | and     (c : Cond) (f : Bool) (rd rn : RegIdx) (op2 : Op2)
  | orr     (c : Cond) (f : Bool) (rd rn : RegIdx) (op2 : Op2)
  | eor     (c : Cond) (f : Bool) (rd rn : RegIdx) (op2 : Op2)
  | mvn     (c : Cond) (f : Bool) (rd : RegIdx) (op2 : Op2)
  | lsl     (c : Cond) (f : Bool) (rd rn : RegIdx) (op2 : Op2)
  | lsr     (c : Cond) (f : Bool) (rd rn : RegIdx) (op2 : Op2)
  | mov     (c : Cond) (f : Bool) (rd : RegIdx) (op2 : Op2)
  | ldr     (c : Cond) (f : Bool) (rd rn : RegIdx)
  | str     (c : Cond) (f : Bool) (rd rn : RegIdx)
  | cmp     (c : Cond) (rn : RegIdx) (op2 : Op2)
  | b       (c : Cond) (f : Bool) (label : Option Text) (target : Option Nat)
  | beq     (f : Bool) (label : Option Text) (target : Option Nat)
deriving DecidableEq, Repr

/-- Why a line lies outside the input contract of R60: the decoder rejects it under one of these names. -/
inductive LineProblem where
  /-- the line has no character -/
  | emptyLine
  /-- the line begins with a space or a tab -/
  | leadingWhitespace
  /-- the line ends with a space or a tab -/
  | trailingWhitespace
  /-- the line holds a line feed or a carriage return -/
  | lineEndCharacter
deriving DecidableEq, Repr

end Sys2Proof
end

