-- ==== Sys2Proof/Config.lean ====
section
/-! DEFINITION. The parameters of the block (R7): the constants the source states, the configuration a machine is
built with, and the open values of this platform, which have no body. -/

namespace Sys2Proof

/-- `LABEL_FIELDS` of R93: one label field for both uses, or two. -/
inductive LabelFields where
  | shared
  | separate
deriving DecidableEq, Repr, Inhabited

/-- The configuration constants of the block (R7, R247): fixed for a machine, never written by a step. -/
structure Config where
  /-- `MEM_BASE`, the byte address of memory word 0 (R54) -/
  memBase       : Word
  /-- `MNEMONIC_TABLE`, base name to operation kind (R67) -/
  mnemonicTable : List (Text × Kind)
  /-- `LABEL_FIELDS` (R93) -/
  labelFields   : LabelFields
deriving DecidableEq, Repr

/-- `NUM_REGS` of R7. -/
abbrev Config.numRegs : Nat := 12

/-- `MEM_WORDS` of R7. -/
abbrev Config.memWords : Nat := 5

/-- `WINDOW_BYTES` of R7: the byte span of the window, offsets 0 to 19. -/
abbrev Config.windowBytes : Nat := 20

/-- `WORD_BYTES` of R7: the address step between words. -/
abbrev Config.wordBytes : Nat := 4

/-- `SHIFT_LIMIT` of R7: the smallest shift amount that yields 0. -/
abbrev Config.shiftLimit : Nat := 32

/-- `FLAG_COUNT` of R7: the condition flags N, Z, C, V. -/
abbrev Config.flagCount : Nat := 4

/-- How many base addresses R54 admits: the multiples of `WORD_BYTES` from which the window does not wrap. -/
abbrev Config.baseCount : Nat := (2 ^ xlen - Config.windowBytes) / Config.wordBytes + 1

/-- The number of the platform's base address among the addresses R54 admits: `MEM_BASE` is four times it. Nothing
fixes which (R54, D17). -/
opaque Config.platformMemBase : Fin Config.baseCount

/-- The platform's `LABEL_FIELDS`, which the source leaves open (R93, D8). -/
opaque Config.platformLabelFields : LabelFields

/-- The constraints R54 puts on the base address. -/
def Config.baseOk (cfg : Config) : Prop :=
  cfg.memBase.toNat % Config.wordBytes = 0 ∧ cfg.memBase.toNat + (Config.windowBytes - 1) ≤ 2 ^ xlen - 1

end Sys2Proof
end

