-- ==== Sys2Proof/Decode.lean ====
section
/-! DEFINITION. The Text Decoder (30_encoding.md): a line of text to its instruction record, the input contract it
relies on, the view of a record as an `Instr`, the numeric codes of the decoded record, and the encoder. -/

namespace Sys2Proof

/-! ### The lexical parameters of R7 -/

/-- `FLAG_MARK` of R7, the letter that asks for a flag update (R65). -/
def flagMark : Chr := ch 'S'

/-- `REG_PREFIX` of R7, the register-prefix letter in either case (R73). -/
def regPrefix : List Chr := [ch 'R', ch 'r']

/-- `IMM_MARK` of R7, the immediate marker (R75). -/
def immMark : Chr := ch '#'

/-- `HEX_PREFIX` of R7 (R74). -/
def hexPrefix : Text := ascii "0x"

/-- `COND_SUFFIXES` of R7: the suffix each condition is written with (R66). -/
def condSuffixes : List (Text × Cond) :=
  [ (ascii "EQ", .eq), (ascii "NE", .ne), (ascii "GT", .gt), (ascii "GE", .ge),
    (ascii "LT", .lt), (ascii "LE", .le) ]

/-! ### Characters and words -/

/-- The whitespace set `WS`: space and horizontal tab (R61). -/
def isWs (c : Chr) : Bool := c == 0x20#8 || c == 0x09#8

/-- A line-end character, which no line of the input contract holds (U7); which characters these are is the
model's choice (assumption log 6). -/
def isLineEnd (c : Chr) : Bool := c == 0x0A#8 || c == 0x0D#8

/-- A decimal digit `0` to `9`. -/
def isDigit (c : Chr) : Bool := 0x30#8 ≤ c && c ≤ 0x39#8

/-- A hexadecimal digit of either case (R74). -/
def isHexDigit (c : Chr) : Bool :=
  isDigit c || (0x61#8 ≤ c && c ≤ 0x66#8) || (0x41#8 ≤ c && c ≤ 0x46#8)

/-- The value of a hexadecimal digit. -/
def hexVal (c : Chr) : Nat :=
  if isDigit c then c.toNat - 0x30
  else if 0x61#8 ≤ c then c.toNat - 0x57
  else c.toNat - 0x37

/-- The number a run of digits writes in base `base`. -/
def digitsValue (base : Nat) (t : Text) : Nat :=
  t.foldl (fun n c => base * n + hexVal c) 0

/-- `split_first_word` of R63: the first word, and the rest without leading whitespace. -/
def splitFirstWord (s : Text) : Text × Text :=
  let t := s.dropWhile isWs
  (t.takeWhile (fun c => !isWs c), (t.dropWhile (fun c => !isWs c)).dropWhile isWs)

/-! ### Mnemonic decomposition -/

/-- The table of R67, in the order of its rows. -/
def defaultMnemonicTable : List (Text × Kind) :=
  [ (ascii "MOV", .mov), (ascii "ADD", .add), (ascii "SUB", .sub), (ascii "CMP", .cmp),
    (ascii "LSL", .lsl), (ascii "B", .b), (ascii "LSR", .lsr), (ascii "AND", .and),
    (ascii "ORR", .orr), (ascii "EOR", .eor), (ascii "MVN", .mvn), (ascii "LDR", .ldr),
    (ascii "STR", .str), (ascii "NOP", .nop) ]

/-- What a mnemonic token decodes to. -/
structure Mnemonic where
  kind  : Kind
  cond  : Cond
  sflag : Bool
deriving DecidableEq, Repr

/-- Step 1 (R65): strip a final flag-update marker. -/
def stripMark (t : Text) : Text × Bool :=
  if t.getLast? = some flagMark then (t.dropLast, true) else (t, false)

/-- Step 2 (R66): strip a final condition suffix; the token needs at least two characters. -/
def stripCond (t : Text) : Text × Cond :=
  if 2 ≤ t.length then
    match condSuffixes.lookup (t.drop (t.length - 2)) with
    | some c => (t.take (t.length - 2), c)
    | none   => (t, .al)
  else (t, .al)

/-- Step 3 (R67): exact match in the table, every other name being invalid. -/
def lookupBase (tbl : List (Text × Kind)) (t : Text) : Kind :=
  (tbl.lookup t).getD .invalid

/-- `decode_mnemonic` of R68. -/
def decodeMnemonic (tbl : List (Text × Kind)) (tok : Text) : Mnemonic :=
  let (t1, f) := stripMark tok
  let (t2, c) := stripCond t1
  { kind := lookupBase tbl t2, cond := c, sflag := f }

/-- `label_text` of R70: one trailing colon is no part of the label. -/
def labelText (w : Text) : Text :=
  if w.getLast? = some (ch ':') then w.dropLast else w

/-! ### Operand tokenization and field parsers -/

/-- The substrings between consecutive commas (R72): `k` commas give `k + 1` fields. -/
def splitCommas : Text → List Text
  | [] => [[]]
  | c :: cs =>
    if c = ch ',' then [] :: splitCommas cs
    else
      match splitCommas cs with
      | []      => [[c]]
      | f :: fs => (c :: f) :: fs

/-- A field without its leading and trailing whitespace (R72). -/
def trimWs (t : Text) : Text :=
  ((t.dropWhile isWs).reverse.dropWhile isWs).reverse

/-- Drop every empty field at the end of the list (R72). -/
def dropTrailingEmpty (fs : List Text) : List Text :=
  (fs.reverse.dropWhile List.isEmpty).reverse

/-- `tokenize` of R72. -/
def tokenize (s : Text) : List Text :=
  if s = [] then [] else dropTrailingEmpty ((splitCommas s).map trimWs)

/-- Remove one optional pair of enclosing brackets (R73). -/
def stripBrackets (t : Text) : Text :=
  if 2 ≤ t.length ∧ t.head? = some (ch '[') ∧ t.getLast? = some (ch ']')
  then (t.drop 1).dropLast else t

/-- The register-prefix letter, either case (R73). -/
def isRegLetter (c : Chr) : Bool := regPrefix.contains c

/-- `parse_reg` of R73; an absent token is `none`. -/
def parseReg : Option Text → RegIdx
  | none => none
  | some tok =>
    match stripBrackets tok with
    | []      => none
    | c :: ds =>
      if isRegLetter c && !ds.isEmpty && ds.all isDigit then some (digitsValue 10 ds) else none

/-- `parse_num` of R74: decimal, or hexadecimal after a lower-case `0x`, reduced modulo 2^32. -/
def parseNum (s : Text) : Option Word :=
  if 3 ≤ s.length ∧ s.take 2 = hexPrefix ∧ (s.drop 2).all isHexDigit then
    some (BitVec.ofNat _ (digitsValue 16 (s.drop 2)))
  else if s ≠ [] ∧ s.all isDigit then
    some (BitVec.ofNat _ (digitsValue 10 s))
  else none

/-- An immediate that fails to parse leaves Operand-2 unset, with no retry as a register (R75). -/
def immOrUnset : Option Word → Op2
  | some v => .imm v
  | none   => .unset

/-- `parse_op2` of R75; an absent token is `none`. -/
def parseOp2 : Option Text → Op2
  | none => .unset
  | some [] => .unset
  | some (c :: cs) =>
    if c = immMark then immOrUnset (parseNum cs)
    else if isDigit c then immOrUnset (parseNum (c :: cs))
    else
      match parseReg (some (c :: cs)) with
      | some i => .reg i
      | none   => .unset

/-! ### Records and label fields -/

/-- A record with every field but `raw` at its default (R28). -/
def InstrRecord.blank (raw : Text) : InstrRecord :=
  { kind := .invalid, raw := raw, cond := .al, sflag := false, label := none, tlabel := none,
    hasLabel := false, rd := none, rn := none, op2 := .unset, target := none }

/-- `set_decl_label` of R93, with the indicator that the line declares a label. -/
def setDeclLabel (t : Text) (r : InstrRecord) : InstrRecord :=
  { r with hasLabel := true, label := some t }

/-- `set_target_label` of R93: under `shared` the target name takes the one label field. -/
def setTargetLabel (lf : LabelFields) (t : Text) (r : InstrRecord) : InstrRecord :=
  match lf with
  | .shared   => { r with label := some t, tlabel := some t }
  | .separate => { r with tlabel := some t }

/-- `decl_label` of R93. -/
def declLabel (r : InstrRecord) : Option Text := r.label

/-- `target_label` of R93: the one field `label` under `shared`, the field `tlabel` under `separate`. A branch without
an operand has no target label under either setting (R80, R192, D29; assumption log 3). -/
def targetLabel (lf : LabelFields) (r : InstrRecord) : Option Text :=
  match lf, r.tlabel with
  | .shared, some _   => r.label
  | .shared, none     => none
  | .separate, target => target

/-! ### The decoder -/

/-- Operand interpretation by kind (R76 to R82). -/
def fillOperands (lf : LabelFields) (m : Mnemonic) (opText : Text) (r0 : InstrRecord) : InstrRecord :=
  let ops := tokenize opText
  let r := { r0 with kind := m.kind, cond := m.cond, sflag := m.sflag }
  match m.kind with
  | .mov | .mvn =>
    { r with rd := parseReg ops[0]?, op2 := parseOp2 ops[1]? }
  | .add | .sub | .and | .orr | .eor | .lsl | .lsr =>
    { r with rd := parseReg ops[0]?, rn := parseReg ops[1]?, op2 := parseOp2 ops[2]? }
  | .cmp =>
    { r with sflag := true, rn := parseReg ops[0]?, op2 := parseOp2 ops[1]? }
  | .ldr | .str =>
    { r with rd := parseReg ops[0]?, rn := parseReg ops[1]? }
  | .b =>
    match ops[0]? with
    | some t => setTargetLabel lf t r
    | none   => r
  | .nop | .invalid => r

/-- `decode_line` of R83: a bare instruction, a labelled instruction, or a label-only line. -/
def decodeLine (cfg : Config) (line : Text) : InstrRecord :=
  let r := InstrRecord.blank line
  let (w1, rest1) := splitFirstWord line
  let m1 := decodeMnemonic cfg.mnemonicTable w1
  if m1.kind ≠ .invalid then fillOperands cfg.labelFields m1 rest1 r
  else
    let lr := setDeclLabel (labelText w1) r
    if rest1 = [] then lr
    else
      let (w2, rest2) := splitFirstWord rest1
      let m2 := decodeMnemonic cfg.mnemonicTable w2
      if m2.kind = .invalid then lr else fillOperands cfg.labelFields m2 rest2 lr

/-- What puts a line outside the input contract of R60 (D31, U7), if anything does. -/
def lineProblem (line : Text) : Option LineProblem :=
  match line with
  | [] => some .emptyLine
  | c :: _ =>
    if line.any isLineEnd then some .lineEndCharacter
    else if isWs c then some .leadingWhitespace
    else if line.getLast?.any isWs then some .trailingWhitespace
    else none

/-- The decoder as the LOAD phase uses it: total on any characters, rejecting by name what the contract rules out. -/
def decode (cfg : Config) (line : Text) : Except LineProblem InstrRecord :=
  match lineProblem line with
  | some p => .error p
  | none   => .ok (decodeLine cfg line)

/-- The instruction a record stands for: the fields its kind reads (R131). A record of kind `B` with condition `EQ`
is the table's row `BEQ` (90_conflicts.md C3). -/
def InstrRecord.instr (r : InstrRecord) : Instr :=
  match r.kind with
  | .nop     => .nop r.cond r.sflag
  | .invalid => .invalid r.hasLabel r.cond
  | .add     => .add r.cond r.sflag r.rd r.rn r.op2
  | .sub     => .sub r.cond r.sflag r.rd r.rn r.op2
  | .and     => .and r.cond r.sflag r.rd r.rn r.op2
  | .orr     => .orr r.cond r.sflag r.rd r.rn r.op2
  | .eor     => .eor r.cond r.sflag r.rd r.rn r.op2
  | .mvn     => .mvn r.cond r.sflag r.rd r.op2
  | .lsl     => .lsl r.cond r.sflag r.rd r.rn r.op2
  | .lsr     => .lsr r.cond r.sflag r.rd r.rn r.op2
  | .mov     => .mov r.cond r.sflag r.rd r.op2
  | .ldr     => .ldr r.cond r.sflag r.rd r.rn
  | .str     => .str r.cond r.sflag r.rd r.rn
  | .cmp     => .cmp r.cond r.rn r.op2
  | .b       => if r.cond = .eq then .beq r.sflag r.tlabel r.target else .b r.cond r.sflag r.tlabel r.target

/-! ### Numeric codes of the decoded record -/

/-- The 4-bit code of an operation kind (R28, R85). -/
def Kind.code : Kind → Nat
  | .nop => 0 | .invalid => 1 | .add => 2 | .sub => 3 | .and => 4 | .orr => 5 | .eor => 6 | .mvn => 7
  | .lsl => 8 | .lsr => 9 | .mov => 10 | .ldr => 11 | .str => 12 | .cmp => 13 | .b => 14

/-- The kind of a code; code 15 is unused (R85). -/
def Kind.ofCode : Nat → Option Kind
  | 0 => some .nop | 1 => some .invalid | 2 => some .add | 3 => some .sub | 4 => some .and
  | 5 => some .orr | 6 => some .eor | 7 => some .mvn | 8 => some .lsl | 9 => some .lsr
  | 10 => some .mov | 11 => some .ldr | 12 => some .str | 13 => some .cmp | 14 => some .b
  | _ => none

/-- The 3-bit code of a condition (R28, R85). -/
def Cond.code : Cond → Nat
  | .al => 0 | .eq => 1 | .ne => 2 | .gt => 3 | .ge => 4 | .lt => 5 | .le => 6

/-- The condition of a code; code 7 is unused (R85). -/
def Cond.ofCode : Nat → Option Cond
  | 0 => some .al | 1 => some .eq | 2 => some .ne | 3 => some .gt | 4 => some .ge | 5 => some .lt
  | 6 => some .le | _ => none

/-- The coded fields of a record as one number: `kind` in bits 3..0, where the opcode table's mask has it, then
`cond` (3 bits), `sflag` and `hasLabel` (one bit each). The widths and codes are R85's; the places above bit 3 are
the model's (assumption log 4). -/
def InstrRecord.header (r : InstrRecord) : Nat :=
  r.kind.code + 16 * r.cond.code + 128 * r.sflag.toNat + 256 * r.hasLabel.toNat

/-- The record whose coded fields are `w` and whose other fields are at their defaults; `none` where a code is
unused (R85). A compare's indicator is true whatever the bit says (R78). -/
def recordOfHeader (w : Nat) : Option InstrRecord :=
  match Kind.ofCode (w % 16), Cond.ofCode (w / 16 % 8) with
  | some k, some c =>
    some { InstrRecord.blank [] with
      kind := k, cond := c, sflag := (w / 128 % 2 == 1) || (k == .cmp), hasLabel := w / 256 % 2 == 1 }
  | _, _ => none

/-- The instruction of a word of the opcode table, which selects a row by the kind code of the decoded record
(R85): the low `nbits` bits of `w`, read as the coded fields of a record. -/
def decodeTableWord (nbits w : Nat) : Option Instr :=
  (recordOfHeader (w % 2 ^ nbits)).map InstrRecord.instr

/-! ### The encoder -/

/-- The operation kind of an instruction. -/
def Instr.kind : Instr → Kind
  | .nop .. => .nop | .invalid .. => .invalid | .add .. => .add | .sub .. => .sub | .and .. => .and
  | .orr .. => .orr | .eor .. => .eor | .mvn .. => .mvn | .lsl .. => .lsl | .lsr .. => .lsr
  | .mov .. => .mov | .ldr .. => .ldr | .str .. => .str | .cmp .. => .cmp | .b .. => .b | .beq .. => .b

/-- The condition field of an instruction. -/
def Instr.cond : Instr → Cond
  | .nop c _ | .invalid _ c | .add c .. | .sub c .. | .and c .. | .orr c .. | .eor c .. | .mvn c ..
  | .lsl c .. | .lsr c .. | .mov c .. | .ldr c .. | .str c .. | .cmp c .. | .b c .. => c
  | .beq .. => .eq

/-- Whether the instruction's mnemonic is written with the marker. A compare is written without it, since its
indicator is true either way (R78). -/
def Instr.marked : Instr → Bool
  | .nop _ f | .add _ f .. | .sub _ f .. | .and _ f .. | .orr _ f .. | .eor _ f .. | .mvn _ f ..
  | .lsl _ f .. | .lsr _ f .. | .mov _ f .. | .ldr _ f .. | .str _ f .. | .b _ f .. | .beq f .. => f
  | .invalid .. | .cmp .. => false

/-- The instruction as it stands before the Program Resolver runs: no branch target (R30). -/
def Instr.unresolved : Instr → Instr
  | .b c f l _   => .b c f l none
  | .beq f l _   => .beq f l none
  | i            => i

/-- The base name a table gives a kind. -/
def baseName (tbl : List (Text × Kind)) (k : Kind) : Text :=
  ((tbl.find? (fun e => e.2 == k)).map Prod.fst).getD []

/-- The suffix a condition is written with; none for `AL` (R66). -/
def condSuffix (c : Cond) : Text :=
  ((condSuffixes.find? (fun e => e.2 == c)).map Prod.fst).getD []

/-- A mnemonic token: base name, condition suffix, marker (R64). -/
def mnemonicToken (base : Text) (c : Cond) (f : Bool) : Text :=
  base ++ condSuffix c ++ (if f then [flagMark] else [])

/-- The register-prefix letter the encoder writes (R73). -/
def regMark : Chr := ch 'R'

/-- The decimal digits of `n`, most significant first, before `acc`. -/
def decDigitsFrom : Nat → Nat → Text → Text
  | 0, _, acc => acc
  | fuel + 1, n, acc =>
    let acc' := BitVec.ofNat 8 (0x30 + n % 10) :: acc
    if n < 10 then acc' else decDigitsFrom fuel (n / 10) acc'

/-- A number written in decimal without leading zeros. -/
def decDigits (n : Nat) : Text := decDigitsFrom (n.log2 + 1) n []

/-- A register field: `R<i>`, or nothing for an absent index (R73, R82). -/
def regField : RegIdx → Text
  | none   => []
  | some i => regMark :: decDigits i

/-- The address field of a load or store: `[R<i>]`, or nothing (R79). -/
def addrField : RegIdx → Text
  | none   => []
  | some i => ch '[' :: regMark :: (decDigits i ++ [ch ']'])

/-- An Operand-2 field: `#<decimal>`, `R<i>`, or nothing (R75). -/
def op2Field : Op2 → Text
  | .unset => []
  | .imm v => immMark :: decDigits v.toNat
  | .reg i => regMark :: decDigits i

/-- The fields of an operand list, joined by commas (R62, R72). -/
def joinCommas : List Text → Text
  | []      => []
  | [f]     => f
  | f :: fs => f ++ ch ',' :: joinCommas fs

/-- The operand text of a branch. An empty label name is written as an empty first field before another, since an
empty field at the end is dropped (R72). -/
def branchOperand : Option Text → Text
  | none         => []
  | some []      => [ch ',', ch '0']
  | some (c :: cs) => c :: cs

/-- The operand text of an instruction, by its format (R84). -/
def operandText : Instr → Text
  | .nop .. | .invalid .. => []
  | .add _ _ rd rn op2 | .sub _ _ rd rn op2 | .and _ _ rd rn op2 | .orr _ _ rd rn op2
  | .eor _ _ rd rn op2 | .lsl _ _ rd rn op2 | .lsr _ _ rd rn op2 =>
    joinCommas [regField rd, regField rn, op2Field op2]
  | .mvn _ _ rd op2 | .mov _ _ rd op2 => joinCommas [regField rd, op2Field op2]
  | .ldr _ _ rd rn | .str _ _ rd rn => joinCommas [regField rd, addrField rn]
  | .cmp _ rn op2 => joinCommas [regField rn, op2Field op2]
  | .b _ _ l _ | .beq _ l _ => branchOperand l

/-- The text of an instruction without a label word; a label-only line has no such text. -/
def instrText (tbl : List (Text × Kind)) (i : Instr) : Text :=
  if i.kind = .invalid then []
  else
    let m := mnemonicToken (baseName tbl i.kind) i.cond i.marked
    if operandText i = [] then m else m ++ ch ' ' :: operandText i

/-- The line of an instruction under an optional label declaration, written `L:` (R62, R84). -/
def encodeLine (tbl : List (Text × Kind)) (lbl : Option Text) (i : Instr) : Text :=
  match lbl with
  | none   => instrText tbl i
  | some l =>
    let t := instrText tbl i
    if t = [] then l ++ [ch ':'] else l ++ ch ':' :: ch ' ' :: t

/-- The encoder with the default table: the words, here the text, of an instruction. -/
def encode (lbl : Option Text) (i : Instr) : Text := encodeLine defaultMnemonicTable lbl i

end Sys2Proof
end

