-- ==== Sys2Proof/Machine/State.lean ====
section
/-! DEFINITION. The machine state of the block (10_state.md), its reset value, and the reasons a step can stop. -/

namespace Sys2Proof.Machine

open Sys2Proof

/-- The four condition flags, each a separate one-bit register (R23). -/
structure Flags where
  n : Bool
  z : Bool
  c : Bool
  v : Bool
deriving DecidableEq, Repr

/-- The phases after reset (R241). -/
inductive Phase where
  | load
  | resolve
  | run
  | halt
deriving DecidableEq, Repr

/-- The general registers `x[0]` to `x[11]` (R20). -/
abbrev Regs := Vector Word Config.numRegs

/-- The data memory: cells (word number, word), the word number `k` standing for `MEM[k]` (R26). The unit is the
32-bit word because no byte of it is addressable (R49; assumption log 7). -/
abbrev Memory := List (Nat × Word)

/-- What an unlisted word reads as: the reset contents (R33, R48). -/
def Memory.unlisted : Word := 0

/-- The canonical form of a memory: word numbers strictly rising, each of `MEM[0]` to `MEM[4]`, no cell equal to what
an unlisted word reads as. -/
abbrev Memory.wf (m : Memory) : Prop :=
  m.Pairwise (fun a b => a.1 < b.1) ∧ ∀ e ∈ m, e.1 < Config.memWords ∧ e.2 ≠ Memory.unlisted

/-- What a step hands the State Reporter (R130). -/
structure Snapshot where
  raw   : Text
  regs  : Regs
  flags : Flags
  mem   : Vector Word Config.memWords
deriving DecidableEq, Repr

/-- No step faults: the block has no exception, no interrupt and no other fault path (R220, R223), so this type has
no constructor. -/
inductive Fault
deriving DecidableEq, Repr

/-- Why a step gives no meaning. -/
inductive Refusal where
  /-- Raised by an arm of `exec` whose instruction has no meaning yet; no arm does. Safe. -/
  | notModelled (mnemonic : String)
  /-- Raised by the LOAD phase on a line outside the input contract (R60, D31, U7). Safe: the model says nothing of
  what the block does with such a line. -/
  | lineOutsideContract (p : LineProblem)
deriving DecidableEq, Repr

/-- The machine state. -/
structure State where
  /-- the configuration constants of the block; no step writes them (R7, R247) -/
  config  : Config
  /-- the phase of the run (R241) -/
  phase   : Phase
  /-- the lines at `LINE_IN` not yet decoded (R246, R247); the model's own field, assumption log 9 -/
  input   : List Text
  /-- the program store `prog[0 .. N-1]` (R27) -/
  prog    : List InstrRecord
  /-- the general registers (R20) -/
  regs    : Regs
  /-- the condition flags (R23) -/
  flags   : Flags
  /-- the data memory (R26) -/
  mem     : Memory
  /-- the program counter, an index into the program store (R25) -/
  pc      : Nat
  /-- the snapshots handed out at `SNAP_OUT`, newest first (R130); the model's own field, assumption log 8 -/
  emitted : List Snapshot
deriving DecidableEq, Repr

/-- The flags at reset (R33). -/
def Flags.reset : Flags := { n := false, z := false, c := false, v := false }

/-- Reset of a block built with the configuration `cfg` (R33, R240): registers, memory words, flags and `pc` zero,
an empty program store, the LOAD phase about to begin. -/
def State.resetWith (cfg : Config) : State :=
  { config := cfg, phase := .load, input := [], prog := [], regs := Vector.replicate Config.numRegs 0,
    flags := Flags.reset, mem := [], pc := 0, emitted := [] }

/-- The configuration of this platform: the table of R67, and the values the source leaves open, of which nothing is
known but R54's constraints (assumption log 1, 2, 5). -/
def platformConfig : Config :=
  { memBase := BitVec.ofNat _ (Config.wordBytes * Config.platformMemBase.val)
    mnemonicTable := defaultMnemonicTable
    labelFields := Config.platformLabelFields }

/-- The machine right after reset, before the host has supplied a line (R33, R240). -/
def State.reset : State := State.resetWith platformConfig

/-- The start of a run: reset, with the run's lines at `LINE_IN` (R246). Nothing of an earlier run survives. -/
def State.start (cfg : Config) (lines : List Text) : State :=
  { State.resetWith cfg with input := lines }

end Sys2Proof.Machine
end

