-- ==== Sys2Proof/Machine/Ops.lean ====
section
/-! DEFINITION. The named operations over registers, memory, `pc` and the snapshot output. The block has no
exceptions, so there is no operation that takes one or returns from one (R220, R225, R226). -/

namespace Sys2Proof.Machine

open Sys2Proof

/-! ### Registers -/

/-- `rdreg` over a register file (R21): index -1, and every index of 12 or more, reads 0. -/
def readReg (rs : Regs) (i : RegIdx) : Word :=
  match i with
  | none   => 0
  | some k => rs[k]?.getD 0

/-- `wrreg` over a register file (R22): index -1, and every index of 12 or more, drops the write. -/
def writeReg (rs : Regs) (i : RegIdx) (v : Word) : Regs :=
  match i with
  | none   => rs
  | some k => rs.setIfInBounds k v

/-- `rdreg` of R21. -/
def rdreg (s : State) (i : RegIdx) : Word := readReg s.regs i

/-- `wrreg` of R22. -/
def wrreg (s : State) (i : RegIdx) (v : Word) : State := { s with regs := writeReg s.regs i v }

/-! ### Flags and the program counter -/

/-- Write all four flags. -/
def setFlags (s : State) (f : Flags) : State := { s with flags := f }

/-- Write `pc`. -/
def setPc (s : State) (n : Nat) : State := { s with pc := n }

/-- `pc <- pc + 1` (R25, R124). -/
def advance (s : State) : State := setPc s (s.pc + 1)

/-! ### Data memory -/

/-- `MEM[k]`: the listed word, or what an unlisted word reads as. -/
def Memory.read (m : Memory) (k : Nat) : Word := (m.lookup k).getD Memory.unlisted

/-- `MEM[k] <- v`, keeping the canonical form: a word that takes the unlisted value leaves the list. -/
def Memory.write (m : Memory) (k : Nat) (v : Word) : Memory :=
  match m with
  | [] => if v = Memory.unlisted then [] else [(k, v)]
  | (j, w) :: rest =>
    if k < j then (if v = Memory.unlisted then (j, w) :: rest else (k, v) :: (j, w) :: rest)
    else if k = j then (if v = Memory.unlisted then rest else (k, v) :: rest)
    else (j, w) :: Memory.write rest k v

/-- `in_window` of R41, over exact unsigned values: not below the base, offset at most 19, offset a multiple of 4. -/
def inWindow (base addr : Word) : Bool :=
  decide (base.toNat ≤ addr.toNat) &&
  decide (addr.toNat - base.toNat ≤ Config.windowBytes - 1) &&
  decide ((addr.toNat - base.toNat) % Config.wordBytes = 0)

/-- The word an in-window address selects (R42). -/
def wordIndex (base addr : Word) : Nat := (addr.toNat - base.toNat) / Config.wordBytes

/-- `MemRead` of R43, for an in-window address. -/
def memRead (s : State) (addr : Word) : Word := Memory.read s.mem (wordIndex s.config.memBase addr)

/-- `MemWrite` of R44, for an in-window address. -/
def memWrite (s : State) (addr : Word) (v : Word) : State :=
  { s with mem := Memory.write s.mem (wordIndex s.config.memBase addr) v }

/-! ### Snapshots -/

/-- The snapshot of R130: the line's text, and registers, flags and memory words in ascending order. -/
def snapshotOf (raw : Text) (s : State) : Snapshot :=
  { raw := raw, regs := s.regs, flags := s.flags, mem := Vector.ofFn (fun k => Memory.read s.mem k.val) }

/-- `emit_snapshot` (R130): hand out the snapshot of the state as it is. -/
def emitSnapshot (raw : Text) (s : State) : State := { s with emitted := snapshotOf raw s :: s.emitted }

end Sys2Proof.Machine
end

