-- ==== Sys2Proof/Machine/Operands.lean ====
section
/-! DEFINITION. Operand values (R126, R127, R180): all read from the state as the previous step left it (R128). -/

namespace Sys2Proof.Machine

open Sys2Proof

/-- The first source operand `A` (R126). -/
def firstVal (s : State) (rn : RegIdx) : Word := rdreg s rn

/-- `op2val` of R127: the immediate, the register's value, or 0 when unset. -/
def op2val (s : State) (o : Op2) : Word :=
  match o with
  | .imm v => v
  | .reg i => rdreg s (some i)
  | .unset => 0

/-- The effective address of a load or store: the address register alone (R180). -/
def effAddr (s : State) (rn : RegIdx) : Word := rdreg s rn

end Sys2Proof.Machine
end

