-- ==== Sys2Proof/Machine/Flags.lean ====
section
/-! DEFINITION. The condition predicate, every flag computation of the spec, and the two ways an instruction ends:
gated by its condition, and with a result written back. -/

namespace Sys2Proof.Machine

open Sys2Proof Host

/-- `cond_holds` of R125; `C` takes no part. -/
def condHolds (c : Cond) (f : Flags) : Bool :=
  match c with
  | .al => true
  | .eq => f.z
  | .ne => !f.z
  | .gt => !f.z && (f.n == f.v)
  | .ge => f.n == f.v
  | .lt => f.n != f.v
  | .le => f.z || (f.n != f.v)

/-- `set_NZ` of R132; `C` and `V` keep their values. -/
def setNZ (f : Flags) (r : Word) : Flags := { f with n := signBit r, z := decide (r = 0) }

/-- `add_flags` of R143: all four flags of `A + B` with 32-bit result `r`. -/
def addFlags (a b r : Word) : Flags :=
  setNZ { n := false, z := false, c := decide (2 ^ xlen ≤ a.toNat + b.toNat),
          v := signBit ((a ^^^ ~~~b) &&& (a ^^^ r)) } r

/-- `sub_flags` of R144: all four flags of `A - B` with 32-bit result `r`; `C` set means no borrow. -/
def subFlags (a b r : Word) : Flags :=
  setNZ { n := false, z := false, c := decide (b.toNat ≤ a.toNat),
          v := signBit ((a ^^^ b) &&& (a ^^^ r)) } r

/-- `logic_flags` of R153, and the flags of the moves (R170, R171): `N` and `Z` only. -/
def logicFlags (f : Flags) (r : Word) : Flags := setNZ f r

/-- `shift_flags` of R163, over the pre-shift value `a`: `C` is the last bit shifted out for amounts 1 to 31 and
keeps its value for amount 0 and amounts of 32 or more; `N` and `Z` always; `V` never. -/
def shiftFlags (f : Flags) (isLeft : Bool) (a amt r : Word) : Flags :=
  let n := amt.toNat
  let c :=
    if 1 ≤ n ∧ n ≤ Config.shiftLimit - 1 then
      (if isLeft then a.getLsbD (Config.shiftLimit - n) else a.getLsbD (n - 1))
    else f.c
  setNZ { f with c := c } r

/-- The flags as the 4-bit value `NZCV`, `N` in bit 3 and `V` in bit 0 (R23). -/
def Flags.toBits (f : Flags) : BitVec Config.flagCount :=
  BitVec.ofNat Config.flagCount (8 * f.n.toNat + 4 * f.z.toNat + 2 * f.c.toNat + f.v.toNat)

/-- The gate every instruction goes through (R123, R124): when the condition fails the operation is skipped and only
`pc` advances. -/
def gate (c : Cond) (s : State) (op : State → State) : Outcome State Fault Refusal :=
  .next (if condHolds c s.flags then op s else advance s)

/-- The end of a data-processing instruction: the result to `rd`, the flags `fl` if the indicator asks for them
(R133), `pc + 1`. -/
def finish (s : State) (rd : RegIdx) (r : Word) (f : Bool) (fl : Flags) : State :=
  advance (setFlags (wrreg s rd r) (if f then fl else s.flags))

end Sys2Proof.Machine
end

