-- ==== Sys2Proof/Machine/Arithmetic.lean ====
section
/-! DEFINITION. `ADD`, `SUB`, `CMP` (41_arithmetic.md). -/

namespace Sys2Proof.Machine

open Sys2Proof Host

/-- `ADD` (R140). -/
def execAdd (c : Cond) (f : Bool) (rd rn : RegIdx) (op2 : Op2) (s : State) : Outcome State Fault Refusal :=
  gate c s fun s =>
    let a := firstVal s rn
    let b := op2val s op2
    finish s rd (a + b) f (addFlags a b (a + b))

/-- `SUB` (R141). -/
def execSub (c : Cond) (f : Bool) (rd rn : RegIdx) (op2 : Op2) (s : State) : Outcome State Fault Refusal :=
  gate c s fun s =>
    let a := firstVal s rn
    let b := op2val s op2
    finish s rd (a - b) f (subFlags a b (a - b))

/-- `CMP` (R142): the flags of the subtraction, unconditionally, and no register. -/
def execCmp (c : Cond) (rn : RegIdx) (op2 : Op2) (s : State) : Outcome State Fault Refusal :=
  gate c s fun s =>
    let a := firstVal s rn
    let b := op2val s op2
    finish s none (a - b) true (subFlags a b (a - b))

end Sys2Proof.Machine
end

