-- ==== Sys2Proof/Machine/Branch.lean ====
section
/-! DEFINITION. The branch `B` and its row `BEQ` (46_branch.md). The indicator and the label name are recorded and
have no effect on execution: the branch reads its resolved target only (R193). -/

namespace Sys2Proof.Machine

open Sys2Proof Host

/-- `exec_b` of R194: the next `pc`, the target when `Z` is set and the target is an index of the program (R196). -/
def branchNext (target : Option Nat) (s : State) : Nat :=
  match target with
  | some t => if s.flags.z && decide (t < s.prog.length) then t else s.pc + 1
  | none   => s.pc + 1

/-- `B` (R194, R195): the operation tests `Z` whatever its condition field is. -/
def execB (c : Cond) (_f : Bool) (_label : Option Text) (target : Option Nat) (s : State) :
    Outcome State Fault Refusal :=
  gate c s fun s => setPc s (branchNext target s)

/-- `BEQ`: the branch with condition `EQ` (R194). -/
def execBeq (_f : Bool) (_label : Option Text) (target : Option Nat) (s : State) :
    Outcome State Fault Refusal :=
  gate .eq s fun s => setPc s (branchNext target s)

end Sys2Proof.Machine
end

