-- ==== Sys2Proof/Machine/LoadStore.lean ====
section
/-! DEFINITION. `LDR`, `STR` (45_load_store.md). The indicator is recorded and has no effect (R86, D28). -/

namespace Sys2Proof.Machine

open Sys2Proof Host

/-- A load from `addr`: outside the window no access occurs and `rd` keeps its value (R45, R181). -/
def loadWord (s : State) (rd : RegIdx) (addr : Word) : State :=
  if inWindow s.config.memBase addr then wrreg s rd (memRead s addr) else s

/-- A store to `addr`: outside the window nothing changes (R45, R182). -/
def storeWord (s : State) (rd : RegIdx) (addr : Word) : State :=
  if inWindow s.config.memBase addr then memWrite s addr (rdreg s rd) else s

/-- `LDR` (R181). -/
def execLdr (c : Cond) (_f : Bool) (rd rn : RegIdx) (s : State) : Outcome State Fault Refusal :=
  gate c s fun s => advance (loadWord s rd (effAddr s rn))

/-- `STR` (R182). -/
def execStr (c : Cond) (_f : Bool) (rd rn : RegIdx) (s : State) : Outcome State Fault Refusal :=
  gate c s fun s => advance (storeWord s rd (effAddr s rn))

end Sys2Proof.Machine
end

