-- ==== Sys2Proof/Machine/Logical.lean ====
section
/-! DEFINITION. `AND`, `ORR`, `EOR` (42_logical.md). -/

namespace Sys2Proof.Machine

open Sys2Proof Host

/-- `AND` (R150). -/
def execAnd (c : Cond) (f : Bool) (rd rn : RegIdx) (op2 : Op2) (s : State) : Outcome State Fault Refusal :=
  gate c s fun s =>
    let r := firstVal s rn &&& op2val s op2
    finish s rd r f (logicFlags s.flags r)

/-- `ORR` (R151). -/
def execOrr (c : Cond) (f : Bool) (rd rn : RegIdx) (op2 : Op2) (s : State) : Outcome State Fault Refusal :=
  gate c s fun s =>
    let r := firstVal s rn ||| op2val s op2
    finish s rd r f (logicFlags s.flags r)

/-- `EOR` (R152). -/
def execEor (c : Cond) (f : Bool) (rd rn : RegIdx) (op2 : Op2) (s : State) : Outcome State Fault Refusal :=
  gate c s fun s =>
    let r := firstVal s rn ^^^ op2val s op2
    finish s rd r f (logicFlags s.flags r)

end Sys2Proof.Machine
end

