-- ==== Sys2Proof/Machine/Move.lean ====
section
/-! DEFINITION. `MOV`, `MVN` (44_move.md). -/

namespace Sys2Proof.Machine

open Sys2Proof Host

/-- `MOV` (R170). -/
def execMov (c : Cond) (f : Bool) (rd : RegIdx) (op2 : Op2) (s : State) : Outcome State Fault Refusal :=
  gate c s fun s =>
    let v := op2val s op2
    finish s rd v f (logicFlags s.flags v)

/-- `MVN` (R171): the complement, and the flags of the complement. -/
def execMvn (c : Cond) (f : Bool) (rd : RegIdx) (op2 : Op2) (s : State) : Outcome State Fault Refusal :=
  gate c s fun s =>
    let v := ~~~(op2val s op2)
    finish s rd v f (logicFlags s.flags v)

end Sys2Proof.Machine
end

