-- ==== Sys2Proof/Machine/NoEffect.lean ====
section
/-! DEFINITION. `NOP` and the invalid kind (47_nop_invalid_label.md). -/

namespace Sys2Proof.Machine

open Sys2Proof Host

/-- `NOP` (R205). -/
def execNop (c : Cond) (_f : Bool) (s : State) : Outcome State Fault Refusal :=
  gate c s advance

/-- The invalid kind: a label-only line is handled before the condition predicate (R122, R207), a record without a
label goes through it (R206); either way only `pc` changes. -/
def execInvalid (hasLabel : Bool) (c : Cond) (s : State) : Outcome State Fault Refusal :=
  if hasLabel then .next (advance s) else gate c s advance

end Sys2Proof.Machine
end

