-- ==== Sys2Proof/Machine/Shift.lean ====
section
/-! DEFINITION. `LSL`, `LSR` (43_shift.md): the amount is the full value of Operand-2 (R160). -/

namespace Sys2Proof.Machine

open Sys2Proof Host

/-- The result of a left shift: 0 for amounts of 32 or more (R160, R161). -/
def lslResult (a amt : Word) : Word :=
  if Config.shiftLimit ≤ amt.toNat then 0 else a <<< amt.toNat

/-- The result of a right shift, zeros entering at bit 31: 0 for amounts of 32 or more (R160, R162). -/
def lsrResult (a amt : Word) : Word :=
  if Config.shiftLimit ≤ amt.toNat then 0 else a >>> amt.toNat

/-- `LSL` (R161). -/
def execLsl (c : Cond) (f : Bool) (rd rn : RegIdx) (op2 : Op2) (s : State) : Outcome State Fault Refusal :=
  gate c s fun s =>
    let a := firstVal s rn
    let amt := op2val s op2
    let r := lslResult a amt
    finish s rd r f (shiftFlags s.flags true a amt r)

/-- `LSR` (R162). -/
def execLsr (c : Cond) (f : Bool) (rd rn : RegIdx) (op2 : Op2) (s : State) : Outcome State Fault Refusal :=
  gate c s fun s =>
    let a := firstVal s rn
    let amt := op2val s op2
    let r := lsrResult a amt
    finish s rd r f (shiftFlags s.flags false a amt r)

end Sys2Proof.Machine
end

