-- ==== Sys2Proof/Machine/Dispatch.lean ====
section
/-! DEFINITION. The dispatch over the closed enumeration (R131): one arm per constructor of `Instr`. -/

namespace Sys2Proof.Machine

open Sys2Proof Host

-- The operation of one step, condition check and `pc` write included (R122 to R124); the snapshot is the step's.
def exec (i : Instr) (s : State) : Host.Outcome State Fault Refusal :=
  match i with
  | .nop c f => Sys2Proof.Machine.execNop c f s
  | .invalid hl c => Sys2Proof.Machine.execInvalid hl c s
  | .add c f rd rn op2 => Sys2Proof.Machine.execAdd c f rd rn op2 s
  | .sub c f rd rn op2 => Sys2Proof.Machine.execSub c f rd rn op2 s
  | .and c f rd rn op2 => Sys2Proof.Machine.execAnd c f rd rn op2 s
  | .orr c f rd rn op2 => Sys2Proof.Machine.execOrr c f rd rn op2 s
  | .eor c f rd rn op2 => Sys2Proof.Machine.execEor c f rd rn op2 s
  | .mvn c f rd op2 => Sys2Proof.Machine.execMvn c f rd op2 s
  | .lsl c f rd rn op2 => Sys2Proof.Machine.execLsl c f rd rn op2 s
  | .lsr c f rd rn op2 => Sys2Proof.Machine.execLsr c f rd rn op2 s
  | .mov c f rd op2 => Sys2Proof.Machine.execMov c f rd op2 s
  | .ldr c f rd rn => Sys2Proof.Machine.execLdr c f rd rn s
  | .str c f rd rn => Sys2Proof.Machine.execStr c f rd rn s
  | .cmp c rn op2 => Sys2Proof.Machine.execCmp c rn op2 s
  | .b c f label target => Sys2Proof.Machine.execB c f label target s
  | .beq f label target => Sys2Proof.Machine.execBeq f label target s

end Sys2Proof.Machine
end

