-- ==== Sys2Proof/Machine/Resolver.lean ====
section
/-! DEFINITION. The Program Resolver (R190 to R193, R197). -/

namespace Sys2Proof.Machine

open Sys2Proof

/-- Whether a record declares the label text `t` (R190). -/
def declares (t : Text) (r : InstrRecord) : Bool := r.hasLabel && decide (declLabel r = some t)

/-- `find_label` of R190: the lowest index that declares the text; `none` is -1, for a text that nothing declares
and for an absent one (R191, R192). -/
def findLabel (prog : List InstrRecord) (t : Option Text) : Option Nat :=
  match t with
  | none   => none
  | some t => prog.findIdx? (declares t)

/-- The record of a branch with its target filled; any other record unchanged (R190). -/
def resolveRecord (cfg : Config) (prog : List InstrRecord) (r : InstrRecord) : InstrRecord :=
  if r.kind = .b then { r with target := findLabel prog (targetLabel cfg.labelFields r) } else r

/-- `resolve` of R190 over the whole program. -/
def resolve (cfg : Config) (prog : List InstrRecord) : List InstrRecord :=
  prog.map (resolveRecord cfg prog)

end Sys2Proof.Machine
end

