-- ==== Sys2Proof/Machine/Run.lean ====
section
/-! DEFINITION. One step of each phase (R241): LOAD decodes a line, RESOLVE fills the targets, RUN executes one
record, HALT changes nothing. -/

namespace Sys2Proof.Machine

open Sys2Proof Host

/-- LOAD: decode the next line at `LINE_IN` and append its record; when the host has supplied its last line, go to
RESOLVE (R241). A line outside the contract is refused (D31). -/
def loadStep (s : State) : Outcome State Fault Refusal :=
  match s.input with
  | [] => .next { s with phase := .resolve }
  | line :: rest =>
    match decode s.config line with
    | .error p => .refused (.lineOutsideContract p)
    | .ok r    => .next { s with input := rest, prog := s.prog ++ [r] }

/-- RESOLVE: write the target of every branch record, then go to RUN (R190, R241). -/
def resolveStep (s : State) : Outcome State Fault Refusal :=
  .next { s with prog := resolve s.config s.prog, phase := .run }

/-- Fetch: the record `pc` indexes, if `pc` is within program bounds (R120, R121). -/
def fetch (s : State) : Option InstrRecord := s.prog[s.pc]?

/-- RUN: the step of R124, and the end of the run when `pc` is past the program (R245). -/
def runStep (s : State) : Outcome State Fault Refusal :=
  match fetch s with
  | none => .next { s with phase := .halt }
  | some r =>
    match exec r.instr s with
    | .next t    => .next (emitSnapshot r.raw t)
    | .fault x   => .fault x
    | .refused x => .refused x

/-- The program store with the record `r` at index `k`, filled up with `NOP` records where it is shorter. -/
def placeRecord (prog : List InstrRecord) (k : Nat) (r : InstrRecord) : List InstrRecord :=
  (prog ++ List.replicate (k - prog.length) { InstrRecord.blank [] with kind := .nop }).take k
    ++ r :: prog.drop (k + 1)

end Sys2Proof.Machine
end

