-- ==== Sys2Proof/Machine/Step.lean ====
section
/-! DEFINITION. The step function, and the placing of a table word where the next step fetches. -/

namespace Sys2Proof.Machine

open Sys2Proof

/-- One step of the machine, by phase (R241). HALT: nothing changes and no snapshot is emitted. -/
def step (s : State) : Host.Outcome State Fault Refusal :=
  match s.phase with
  | .load    => loadStep s
  | .resolve => resolveStep s
  | .run     => runStep s
  | .halt    => .next s

/-- The state with the record of a table word at index `pc` of the program store, in the RUN phase, so that the next
step fetches and runs it: it stands for a program loaded and resolved (assumption log 4, 9). A word with an unused
code changes nothing. -/
def State.withFetchWord (s : State) (nbits w : Nat) : State :=
  match recordOfHeader (w % 2 ^ nbits) with
  | some r => { s with phase := .run, prog := placeRecord s.prog s.pc r }
  | none   => s

end Sys2Proof.Machine
end

