-- ==== Sys2Proof/WellFormed.lean ====
section
/-! DEFINITION. Well-formedness: of an instruction with the label word before it (what the decoder can produce and
the encoder can write), of a mnemonic table, and the admitted input subset of R94. -/

namespace Sys2Proof

/-- A text that stands in a line of the contract: no line-end character (U7). -/
def textOk (t : Text) : Bool := t.all (fun c => !isLineEnd c)

/-- A branch operand as the tokenizer leaves it: no comma inside, no whitespace at either end (R72). -/
def operandNameOk (t : Text) : Bool :=
  textOk t && t.all (fun c => c != ch ',') && trimWs t == t

/-- A label text that can be declared: no whitespace inside (R62, R63). -/
def declNameOk (t : Text) : Bool :=
  textOk t && t.all (fun c => !isWs c)

/-- Well-formed instructions. A record of kind `INVALID` is label-only with condition `AL` (R31 (d), R92); a branch
with condition `EQ` is the row `BEQ`; a branch's label name is an operand field. Every other operand is free. -/
def Instr.wellFormed : Instr → Bool
  | .invalid hl c => hl && (c == .al)
  | .b c _ l _    => (c != .eq) && l.all operandNameOk
  | .beq _ l _    => l.all operandNameOk
  | _             => true

/-- A line that can be written: the label text can be declared, and a label-only line has one (R71). -/
def lineWellFormed (lbl : Option Text) (i : Instr) : Bool :=
  i.wellFormed && lbl.all declNameOk && (i.kind != .invalid || lbl.isSome)

/-- The two constraints under which every key of a replacement table stays reachable (R67), with the keys distinct
and none of them mapped to the invalid kind. -/
def tableOk (tbl : List (Text × Kind)) : Prop :=
  (∀ e ∈ tbl, e.1.getLast? ≠ some flagMark ∧ (∀ sc ∈ condSuffixes, ¬ sc.1 <:+ e.1) ∧ e.2 ≠ .invalid) ∧
  (tbl.map Prod.fst).Nodup

/-! ### The admitted input subset (R94) -/

/-- A printable ASCII character other than the space. -/
def isPrintable (c : Chr) : Bool := 0x21#8 ≤ c && c ≤ 0x7E#8

/-- R94 (b): no two whitespace characters in a row. -/
def singleSpaced : Text → Bool
  | c :: d :: t => !(isWs c && isWs d) && singleSpaced (d :: t)
  | _           => true

/-- Digits without a leading zero before another digit (R94 (f), (g)). -/
def plainDecimal (t : Text) : Bool :=
  !t.isEmpty && t.all isDigit && (t.length == 1 || t.head? != some (ch '0'))

/-- R94 (f): `R<i>` or `r<i>` with `i` from 0 to 11 and no leading zero. -/
def admittedReg : Text → Bool
  | []      => false
  | c :: ds => isRegLetter c && plainDecimal ds && decide (digitsValue 10 ds < Config.numRegs)

/-- R94 (f): the address operand of a load or store stands in brackets. -/
def admittedAddr (t : Text) : Bool :=
  decide (t.head? = some (ch '[')) && decide (t.getLast? = some (ch ']')) && admittedReg (stripBrackets t)

/-- R94 (g): a number of at most `XLEN` bits, decimal without a leading zero or `0x` hexadecimal. -/
def admittedNum (t : Text) : Bool :=
  (plainDecimal t && decide (digitsValue 10 t < 2 ^ xlen)) ||
  (decide (3 ≤ t.length) && (t.take 2 == hexPrefix) && (t.drop 2).all isHexDigit &&
    decide (digitsValue 16 (t.drop 2) < 2 ^ xlen))

/-- R94 (f), (g): an Operand-2 field. -/
def admittedOp2 (t : Text) : Bool :=
  match t with
  | []      => false
  | c :: cs => (c == immMark && admittedNum cs) || admittedNum t || admittedReg t

/-- R94 (e): exactly the fields of the format, each of the admitted form. Every field is cut as R72 cuts it. -/
def admittedOperands (k : Kind) (opText : Text) : Bool :=
  let fs := if opText = [] then [] else (splitCommas opText).map trimWs
  match k, fs with
  | .mov, [d, o] | .mvn, [d, o] => admittedReg d && admittedOp2 o
  | .add, [d, n, o] | .sub, [d, n, o] | .and, [d, n, o] | .orr, [d, n, o] | .eor, [d, n, o]
  | .lsl, [d, n, o] | .lsr, [d, n, o] => admittedReg d && admittedReg n && admittedOp2 o
  | .cmp, [n, o] => admittedReg n && admittedOp2 o
  | .ldr, [d, a] | .str, [d, a] => admittedReg d && admittedAddr a
  | .b, [l] => !l.isEmpty
  | .nop, [] => true
  | _, _ => false

/-- R94 (c): a label word ends in exactly one colon, holds no other, and its text is no mnemonic and not empty. -/
def admittedLabelWord (tbl : List (Text × Kind)) (w : Text) : Bool :=
  decide (w.getLast? = some (ch ':')) && w.dropLast.all (fun c => c != ch ':') &&
  !w.dropLast.isEmpty && decide ((decodeMnemonic tbl w.dropLast).kind = .invalid)

/-- R94 (d), (e): the mnemonic of an admitted instruction, the branch being written `BEQ` only, and its operands. -/
def admittedInstr (tbl : List (Text × Kind)) (w opText : Text) : Bool :=
  let m := decodeMnemonic tbl w
  decide (m.kind ≠ .invalid) && admittedOperands m.kind opText &&
  (m.kind != .b || w == mnemonicToken (baseName tbl .b) .eq false)

/-- The admitted input subset (R94): the lines on which the source alone settles the record. Clause (i) holds of
every line; clause (h) keeps a label off a branch line. -/
def admittedLine (tbl : List (Text × Kind)) (line : Text) : Bool :=
  let (w1, rest1) := splitFirstWord line
  (lineProblem line == none) && line.all (fun c => isPrintable c || isWs c) && singleSpaced line &&
  (admittedInstr tbl w1 rest1 ||
    (admittedLabelWord tbl w1 &&
      (rest1.isEmpty ||
        (let (w2, rest2) := splitFirstWord rest1
         admittedInstr tbl w2 rest2 && ((decodeMnemonic tbl w2).kind != .b)))))

end Sys2Proof
end

