-- ==== Sys2Proof/Safety.lean ====
section
/-! DEFINITION. What a good state of the block is, in the terms the statements use: the shape of a decoded record,
the invariant of a run, and a run that does not stop. -/

namespace Sys2Proof.Machine

open Sys2Proof Host

/-- The shape of a decoded record (R31, R76 to R81, R92): fields that no operand rule of the kind fills hold their
defaults, a record of kind `INVALID` declares a label, a compare updates flags, only a branch has a target. -/
def canonicalRecord (r : InstrRecord) : Prop :=
  (r.kind ≠ .b → r.target = none ∧ r.tlabel = none) ∧
  (r.hasLabel = true → r.label.isSome = true) ∧
  match r.kind with
  | .invalid => r.hasLabel = true ∧ r.cond = .al ∧ r.sflag = false ∧ r.rd = none ∧ r.rn = none ∧ r.op2 = .unset
  | .nop | .b => r.rd = none ∧ r.rn = none ∧ r.op2 = .unset
  | .mov | .mvn => r.rn = none
  | .cmp => r.sflag = true ∧ r.rd = none
  | .ldr | .str => r.op2 = .unset
  | .add | .sub | .and | .orr | .eor | .lsl | .lsr => True

/-- The machine state of R33: registers, memory words, flags and `pc` as at reset. -/
def MachineAtReset (s : State) : Prop :=
  s.regs = Vector.replicate Config.numRegs 0 ∧ s.flags = Flags.reset ∧ s.mem = [] ∧ s.pc = 0

/-- The invariant of a run, over all phases. -/
structure Inv (s : State) : Prop where
  /-- the memory is in canonical form, with no word but `MEM[0]` to `MEM[4]` (R26, R50) -/
  memory   : Memory.wf s.mem
  /-- the base address meets R54's constraints -/
  base     : s.config.baseOk
  /-- `pc` never exceeds `N` (R25) -/
  pcBound  : s.pc ≤ s.prog.length
  /-- every record has the shape the decoder gives it (R31) -/
  records  : ∀ r ∈ s.prog, canonicalRecord r
  /-- a target is absent or an index of the program (R196) -/
  targets  : ∀ r ∈ s.prog, ∀ t, r.target = some t → t < s.prog.length
  /-- before RUN nothing has run and nothing is resolved (R241) -/
  preRun   : s.phase = .load ∨ s.phase = .resolve →
               MachineAtReset s ∧ s.emitted = [] ∧ ∀ r ∈ s.prog, r.target = none
  /-- from RUN on every branch has the target its label gives (R190, R193) -/
  resolved : s.phase = .run ∨ s.phase = .halt → s.prog = resolve s.config s.prog
  /-- after LOAD the host has no line left to give (R241) -/
  loaded   : s.phase ≠ .load → s.input = []
  /-- a run ends at `pc = N` (R245) -/
  halted   : s.phase = .halt → s.pc = s.prog.length

/-- A state whose next step neither faults nor refuses. -/
def Continues (s : State) : Prop := ∃ t, step s = .next t

/-- `LABEL_FIELDS`-independent content of a record: what it declares and what it branches to (R93). -/
def labelContent (cfg : Config) (r : InstrRecord) : Option (Option Text) × Option (Option Text) :=
  (if r.hasLabel then some (declLabel r) else none, if r.kind = .b then some (targetLabel cfg.labelFields r) else none)

/-- The flags with another carry: what two states that differ in `C` only have in common (R24). -/
def withCarry (c : Bool) (s : State) : State := setFlags s { s.flags with c := c }

end Sys2Proof.Machine
end

