-- ==== Sys2Proof/Certificates/Slice0/Obligations.lean ====
section
/-! DEFINITION. The statements about the block, for the provers. -/

open Sys2Proof Sys2Proof.Machine Host

/-! ### Reset, registers, flags -/

/-- R240: the machine state at reset, under any configuration and before any line is decoded; the empty program
store and the phase about to begin are R240's and R241's. -/
def Obligations.ResetClearsMachineState : Prop :=
  ∀ (cfg : Config) (lines : List Text),
    let s := State.start cfg lines
    (∀ i, i < 12 → rdreg s (some i) = 0#32) ∧ (∀ k, k < 5 → Memory.read s.mem k = 0#32) ∧
    s.flags.n = false ∧ s.flags.z = false ∧ s.flags.c = false ∧ s.flags.v = false ∧
    s.pc = 0 ∧ s.prog = [] ∧ s.emitted = [] ∧ s.phase = .load ∧ s.input = lines ∧ s.config = cfg

/-- R21: a register read through a decoded index. The 0 for an index of 12 or more is the spec's own decision D23 for a
first source (assumption log 13). -/
def Obligations.RegisterReadByIndex : Prop :=
  ∀ (s : State) (i : Nat),
    (∀ h : i < 12, rdreg s (some i) = s.regs[i]) ∧ (12 ≤ i → rdreg s (some i) = 0#32) ∧ rdreg s none = 0#32

/-- R22: a register write through a decoded index; an index of 12 or more, or -1, drops it. That an index of 12 or more
drops the write is the spec's own decision D23 (assumption log 13). -/
def Obligations.RegisterWriteByIndex : Prop :=
  ∀ (s : State) (i : Nat) (v : Word),
    (i < 12 → ∀ (j : Nat) (h : j < 12), (wrreg s (some i) v).regs[j] = if j = i then v else s.regs[j]) ∧
    (wrreg s (some i) v = { s with regs := (wrreg s (some i) v).regs }) ∧
    (12 ≤ i → wrreg s (some i) v = s) ∧ wrreg s none v = s

/-- R125: the condition predicate; `C` occurs in none of them. -/
def Obligations.ConditionPredicate : Prop :=
  ∀ f : Flags,
    condHolds .al f = true ∧
    (condHolds .eq f = true ↔ f.z = true) ∧
    (condHolds .ne f = true ↔ f.z = false) ∧
    (condHolds .gt f = true ↔ f.z = false ∧ f.n = f.v) ∧
    (condHolds .ge f = true ↔ f.n = f.v) ∧
    (condHolds .lt f = true ↔ f.n ≠ f.v) ∧
    (condHolds .le f = true ↔ f.z = true ∨ f.n ≠ f.v)

/-- R143: the flags of an addition, and that the formula for `V` sets it exactly when the operands have one sign bit
and the result the other. -/
def Obligations.AdditionFlags : Prop :=
  ∀ a b : Word,
    let r := BitVec.ofNat 32 ((a.toNat + b.toNat) % 2 ^ 32)
    let f := addFlags a b r
    (f.c = true ↔ 2 ^ 32 ≤ a.toNat + b.toNat) ∧
    (f.n = true ↔ 2 ^ 31 ≤ r.toNat) ∧ (f.z = true ↔ r.toNat = 0) ∧
    (f.v = true ↔ ((a ^^^ ~~~b) &&& (a ^^^ r)).getLsbD 31 = true) ∧
    (f.v = true ↔ (a.getLsbD 31 = b.getLsbD 31 ∧ r.getLsbD 31 ≠ a.getLsbD 31))

/-- R144: the flags of a subtraction. -/
def Obligations.SubtractionFlags : Prop :=
  ∀ a b : Word,
    let r := BitVec.ofNat 32 ((a.toNat + 2 ^ 32 - b.toNat) % 2 ^ 32)
    let f := subFlags a b r
    (f.c = true ↔ b.toNat ≤ a.toNat) ∧
    (f.n = true ↔ 2 ^ 31 ≤ r.toNat) ∧ (f.z = true ↔ r.toNat = 0) ∧
    (f.v = true ↔ ((a ^^^ b) &&& (a ^^^ r)).getLsbD 31 = true) ∧
    (f.v = true ↔ (a.getLsbD 31 ≠ b.getLsbD 31 ∧ r.getLsbD 31 ≠ a.getLsbD 31))

/-- `V` is the signed overflow of the add and of the subtract (R24's table, R143, R144): the exact signed result does
not fit in 32 bits. -/
def Obligations.OverflowIsSignedOverflow : Prop :=
  ∀ a b : Word,
    ((addFlags a b (a + b)).v = true ↔ (a.toInt + b.toInt < -2 ^ 31 ∨ 2 ^ 31 ≤ a.toInt + b.toInt)) ∧
    ((subFlags a b (a - b)).v = true ↔ (a.toInt - b.toInt < -2 ^ 31 ∨ 2 ^ 31 ≤ a.toInt - b.toInt))

/-- After a compare of `a` with `b` each condition means what its name says (R28's names, R125, R144): equal,
not-equal, and the four signed comparisons. -/
def Obligations.ConditionsAfterCompare : Prop :=
  ∀ (a b : Word) (rn : RegIdx) (op2 : Op2) (s t : State),
    rdreg s rn = a → op2val s op2 = b → exec (.cmp .al rn op2) s = .next t →
    (condHolds .eq t.flags = true ↔ a = b) ∧ (condHolds .ne t.flags = true ↔ a ≠ b) ∧
    (condHolds .gt t.flags = true ↔ b.toInt < a.toInt) ∧ (condHolds .ge t.flags = true ↔ b.toInt ≤ a.toInt) ∧
    (condHolds .lt t.flags = true ↔ a.toInt < b.toInt) ∧ (condHolds .le t.flags = true ↔ a.toInt ≤ b.toInt) ∧
    (t.flags.c = true ↔ b.toNat ≤ a.toNat)

/-! ### The step -/

/-- R123: an instruction of any kind whose condition fails is skipped: only `pc` changes. As a step it still emits its
snapshot, of the unchanged state. A label-only line is not subject to the predicate (R122). -/
def Obligations.FailedConditionSkips : Prop :=
  (∀ (i : Instr) (s : State),
    (∀ c, i ≠ .invalid true c) → condHolds i.cond s.flags = false →
    exec i s = .next { s with pc := s.pc + 1 }) ∧
  (∀ (s : State) (r : InstrRecord),
    s.phase = .run → s.prog[s.pc]? = some r → ¬ (r.kind = .invalid ∧ r.hasLabel = true) →
    condHolds r.cond s.flags = false →
    step s = .next { s with pc := s.pc + 1, emitted := snapshotOf r.raw s :: s.emitted })

/-- R121, R124: in the RUN phase the step runs the record `pc` indexes, as the instruction it decodes to, and hands
out the snapshot of the result with the record's text. Every record is run, well-formed or not. -/
def Obligations.StepRunsFetchedInstruction : Prop :=
  ∀ (s t : State) (r : InstrRecord),
    s.phase = .run → s.prog[s.pc]? = some r → exec r.instr s = .next t →
    step s = .next { t with emitted := snapshotOf r.raw t :: t.emitted }

/-- R122: a label-only step changes nothing but `pc` and emits its snapshot, whatever the flags are. -/
def Obligations.LabelOnlyStep : Prop :=
  ∀ (s : State) (r : InstrRecord),
    s.phase = .run → s.prog[s.pc]? = some r → r.kind = .invalid → r.hasLabel = true →
    step s = .next { s with pc := s.pc + 1, emitted := snapshotOf r.raw s :: s.emitted }

/-- R120, R241, R245: with `pc` past the program the run is over, and in HALT nothing changes and no snapshot is
emitted. -/
def Obligations.RunEndsPastProgram : Prop :=
  ∀ s : State,
    (s.phase = .run → s.prog.length ≤ s.pc → step s = .next { s with phase := .halt }) ∧
    (s.phase = .halt → step s = .next s)

/-- R130: every program step hands out exactly one snapshot, and the snapshot is the text of the record executed, the
registers and the memory words in ascending order, and the flags, with the values after the step's own writes. No other
step hands one out (R241). -/
def Obligations.OneSnapshotPerStep : Prop :=
  ∀ s t : State, step s = .next t →
    (s.phase = .run → ∀ r, s.prog[s.pc]? = some r → ∃ snap : Snapshot,
      t.emitted = snap :: s.emitted ∧ snap.raw = r.raw ∧ snap.flags = t.flags ∧
      (∀ (i : Nat) (h : i < 12), snap.regs[i] = rdreg t (some i)) ∧
      (∀ (k : Nat) (h : k < 5), snap.mem[k] = Memory.read t.mem k)) ∧
    ((s.phase ≠ .run ∨ s.prog.length ≤ s.pc) → t.emitted = s.emitted)

/-- R134: over any number of steps that stay in the RUN phase, the number of snapshots emitted is the number of steps
taken, label-only and skipped lines included. -/
def Obligations.SnapshotCountIsStepCount : Prop :=
  ∀ (k : Nat) (s t : State), s.phase = .run →
    Host.Core.run Sys2Proof.core k s = .next t → t.phase = .run →
    t.emitted.length = s.emitted.length + k

/-! ### Results of the instructions -/

/-- R140: `ADD`, executed. Its result is the exact sum modulo 2^32, its flags those of R143, an absent or
out-of-range destination drops the write and keeps the flag update (R133); nothing else changes. -/
def Obligations.AddExecutes : Prop :=
  ∀ (c : Cond) (f : Bool) (rd rn : RegIdx) (op2 : Op2) (s : State), condHolds c s.flags = true →
    let a := rdreg s rn
    let b := op2val s op2
    let r := BitVec.ofNat 32 ((a.toNat + b.toNat) % 2 ^ 32)
    exec (.add c f rd rn op2) s = .next { s with
      regs := writeReg s.regs rd r, pc := s.pc + 1,
      flags := if f then
          { n := r.getLsbD 31, z := r == 0#32, c := decide (2 ^ 32 ≤ a.toNat + b.toNat),
            v := ((a ^^^ ~~~b) &&& (a ^^^ r)).getLsbD 31 }
        else s.flags }

/-- R141: `SUB`, executed. -/
def Obligations.SubExecutes : Prop :=
  ∀ (c : Cond) (f : Bool) (rd rn : RegIdx) (op2 : Op2) (s : State), condHolds c s.flags = true →
    let a := rdreg s rn
    let b := op2val s op2
    let r := BitVec.ofNat 32 (if b.toNat ≤ a.toNat then a.toNat - b.toNat else a.toNat + 2 ^ 32 - b.toNat)
    exec (.sub c f rd rn op2) s = .next { s with
      regs := writeReg s.regs rd r, pc := s.pc + 1,
      flags := if f then
          { n := r.getLsbD 31, z := r == 0#32, c := decide (b.toNat ≤ a.toNat),
            v := ((a ^^^ b) &&& (a ^^^ r)).getLsbD 31 }
        else s.flags }

/-- R142: `CMP`, executed: the flags of the subtraction always, and no register. -/
def Obligations.CmpExecutes : Prop :=
  ∀ (c : Cond) (rn : RegIdx) (op2 : Op2) (s : State), condHolds c s.flags = true →
    let a := rdreg s rn
    let b := op2val s op2
    let r := BitVec.ofNat 32 (if b.toNat ≤ a.toNat then a.toNat - b.toNat else a.toNat + 2 ^ 32 - b.toNat)
    exec (.cmp c rn op2) s = .next { s with
      pc := s.pc + 1,
      flags := { n := r.getLsbD 31, z := r == 0#32, c := decide (b.toNat ≤ a.toNat),
                 v := ((a ^^^ b) &&& (a ^^^ r)).getLsbD 31 } }

/-- R150 to R153: `AND`, `ORR`, `EOR`, executed: each result bit from the two source bits, `N` and `Z` on request,
`C` and `V` never. -/
def Obligations.BitwiseExecutes : Prop :=
  ∀ (c : Cond) (f : Bool) (rd rn : RegIdx) (op2 : Op2) (s : State), condHolds c s.flags = true →
    let a := rdreg s rn
    let b := op2val s op2
    ∀ e ∈ [(Instr.and c f rd rn op2, fun x y => x && y), (Instr.orr c f rd rn op2, fun x y => x || y),
           (Instr.eor c f rd rn op2, fun x y => x ^^ y)],
      ∃ r : Word, (∀ k, k < 32 → r.getLsbD k = e.2 (a.getLsbD k) (b.getLsbD k)) ∧
        exec e.1 s = .next { s with
          regs := writeReg s.regs rd r, pc := s.pc + 1,
          flags := if f then { s.flags with n := r.getLsbD 31, z := r == 0#32 } else s.flags }

/-- R160, R161, R163: `LSL`, executed, over the full 32-bit amount. -/
def Obligations.LslExecutes : Prop :=
  ∀ (c : Cond) (f : Bool) (rd rn : RegIdx) (op2 : Op2) (s : State), condHolds c s.flags = true →
    let a := rdreg s rn
    let amt := (op2val s op2).toNat
    let r := if amt ≥ 32 then 0#32 else BitVec.ofNat 32 ((a.toNat * 2 ^ amt) % 2 ^ 32)
    exec (.lsl c f rd rn op2) s = .next { s with
      regs := writeReg s.regs rd r, pc := s.pc + 1,
      flags := if f then
          { s.flags with
            n := r.getLsbD 31, z := r == 0#32,
            c := if 1 ≤ amt ∧ amt ≤ 31 then a.getLsbD (32 - amt) else s.flags.c }
        else s.flags }

/-- R160, R162, R163: `LSR`, executed. -/
def Obligations.LsrExecutes : Prop :=
  ∀ (c : Cond) (f : Bool) (rd rn : RegIdx) (op2 : Op2) (s : State), condHolds c s.flags = true →
    let a := rdreg s rn
    let amt := (op2val s op2).toNat
    let r := if amt ≥ 32 then 0#32 else BitVec.ofNat 32 (a.toNat / 2 ^ amt)
    exec (.lsr c f rd rn op2) s = .next { s with
      regs := writeReg s.regs rd r, pc := s.pc + 1,
      flags := if f then
          { s.flags with
            n := r.getLsbD 31, z := r == 0#32,
            c := if 1 ≤ amt ∧ amt ≤ 31 then a.getLsbD (amt - 1) else s.flags.c }
        else s.flags }

/-- R170, R171: `MOV` and `MVN`, executed: the value of Operand-2, and its complement `0xFFFFFFFF - value`. -/
def Obligations.MovesExecute : Prop :=
  ∀ (c : Cond) (f : Bool) (rd : RegIdx) (op2 : Op2) (s : State), condHolds c s.flags = true →
    let v := op2val s op2
    ∀ e ∈ [(Instr.mov c f rd op2, v.toNat), (Instr.mvn c f rd op2, 0xFFFFFFFF - v.toNat)],
      ∃ r : Word, r.toNat = e.2 ∧
        exec e.1 s = .next { s with
          regs := writeReg s.regs rd r, pc := s.pc + 1,
          flags := if f then { s.flags with n := r.getLsbD 31, z := r == 0#32 } else s.flags }

/-- R127: the value of Operand-2 in each of its forms. -/
def Obligations.OperandTwoValue : Prop :=
  ∀ (s : State) (v : Word) (i : Nat),
    op2val s (.imm v) = v ∧ op2val s .unset = 0#32 ∧
    (∀ h : i < 12, op2val s (.reg i) = s.regs[i]) ∧ (12 ≤ i → op2val s (.reg i) = 0#32)

/-- R181 with R41, R42: `LDR`, executed, at one of the five words, and at every other address, where it does nothing.
The base address meets R54's constraints. -/
def Obligations.LdrExecutes : Prop :=
  ∀ (c : Cond) (f : Bool) (rd rn : RegIdx) (s : State), s.config.baseOk → condHolds c s.flags = true →
    (∀ k, k < 5 → (rdreg s rn).toNat = s.config.memBase.toNat + 4 * k →
      exec (.ldr c f rd rn) s = .next { s with
        regs := writeReg s.regs rd (Memory.read s.mem k), pc := s.pc + 1 }) ∧
    ((∀ k, k < 5 → (rdreg s rn).toNat ≠ s.config.memBase.toNat + 4 * k) →
      exec (.ldr c f rd rn) s = .next { s with pc := s.pc + 1 })

/-- R182 with R41, R42: `STR`, executed: the one word selected takes the data register's value (0 for an absent or
out-of-range one) and every other word reads as before; at every other address nothing changes. The base address
meets R54's constraints and the memory is in canonical form. -/
def Obligations.StrExecutes : Prop :=
  ∀ (c : Cond) (f : Bool) (rd rn : RegIdx) (s : State), s.config.baseOk → Memory.wf s.mem →
    condHolds c s.flags = true →
    (∀ k, k < 5 → (rdreg s rn).toNat = s.config.memBase.toNat + 4 * k →
      ∃ m : Memory, Memory.wf m ∧ (∀ j, Memory.read m j = if j = k then rdreg s rd else Memory.read s.mem j) ∧
        exec (.str c f rd rn) s = .next { s with mem := m, pc := s.pc + 1 }) ∧
    ((∀ k, k < 5 → (rdreg s rn).toNat ≠ s.config.memBase.toNat + 4 * k) →
      exec (.str c f rd rn) s = .next { s with pc := s.pc + 1 })

/-- The branch under each condition field. The table is R195's, which the spec itself derives from R194 (the branch
tests `Z` and the target, R196) and R125 (the condition predicate). The branch is taken exactly when `Z` is set, the row of R195's
table allows it and the target is an index of the program; nothing but `pc` changes. -/
def Obligations.BranchUnderEachCondition : Prop :=
  ∀ (c : Cond) (f : Bool) (l : Option Text) (target : Option Nat) (s : State),
    ∃ n : Nat, exec (.b c f l target) s = .next { s with pc := n } ∧
      ((∃ k, target = some k ∧ k < s.prog.length ∧ n = k ∧ s.flags.z = true ∧
          (c = .al ∨ c = .eq ∨ c = .le ∨ (c = .ge ∧ s.flags.n = s.flags.v) ∨ (c = .lt ∧ s.flags.n ≠ s.flags.v))) ∨
       (n = s.pc + 1 ∧ ¬ (∃ k, target = some k ∧ k < s.prog.length ∧ s.flags.z = true ∧
          (c = .al ∨ c = .eq ∨ c = .le ∨ (c = .ge ∧ s.flags.n = s.flags.v) ∨ (c = .lt ∧ s.flags.n ≠ s.flags.v)))))

/-- R194: `BEQ` is taken iff `Z` is set and its target is an index of the program; otherwise it falls through. -/
def Obligations.BeqTakenIffZeroAndTarget : Prop :=
  ∀ (f : Bool) (l : Option Text) (s : State),
    (∀ k, k < s.prog.length → s.flags.z = true → exec (.beq f l (some k)) s = .next { s with pc := k }) ∧
    (∀ target, (s.flags.z = false ∨ ∀ k, target = some k → s.prog.length ≤ k) →
      exec (.beq f l target) s = .next { s with pc := s.pc + 1 })

/-- R205, R206, R207: `NOP` and the invalid kind, labelled or not, under every condition: only `pc` changes. -/
def Obligations.NopAndInvalidOnlyAdvance : Prop :=
  ∀ (c : Cond) (f hl : Bool) (s : State),
    exec (.nop c f) s = .next { s with pc := s.pc + 1 } ∧ exec (.invalid hl c) s = .next { s with pc := s.pc + 1 }

/-! ### Frames -/

/-- R24, R131, R133: the frame of the data-processing instructions with a destination. Every register but the
destination, every memory word, the program, the configuration and the snapshots keep their values; without the
marker so do all flags; the bitwise operations, the shifts and the moves never change `V`, and the bitwise operations
and the moves never change `C`. -/
def Obligations.DataProcessingFrame : Prop :=
  ∀ (c : Cond) (f : Bool) (rd rn : RegIdx) (op2 : Op2) (s t : State),
    let logical : List Instr := [.and c f rd rn op2, .orr c f rd rn op2, .eor c f rd rn op2, .mov c f rd op2,
      .mvn c f rd op2]
    let shifts : List Instr := [.lsl c f rd rn op2, .lsr c f rd rn op2]
    ∀ i ∈ [Instr.add c f rd rn op2, .sub c f rd rn op2] ++ shifts ++ logical, exec i s = .next t →
      (∀ j, rd ≠ some j → rdreg t (some j) = rdreg s (some j)) ∧
      (∀ k, Memory.read t.mem k = Memory.read s.mem k) ∧
      (f = false → t.flags = s.flags) ∧
      (i ∈ shifts ++ logical → t.flags.v = s.flags.v) ∧ (i ∈ logical → t.flags.c = s.flags.c) ∧
      t.prog = s.prog ∧ t.config = s.config ∧ t.phase = s.phase ∧ t.input = s.input ∧ t.emitted = s.emitted

/-- R131, R142: a compare changes the flags and `pc` only. -/
def Obligations.CompareFrame : Prop :=
  ∀ (c : Cond) (rn : RegIdx) (op2 : Op2) (s t : State), exec (.cmp c rn op2) s = .next t →
    (∀ j, rdreg t j = rdreg s j) ∧ (∀ k, Memory.read t.mem k = Memory.read s.mem k) ∧
    t.prog = s.prog ∧ t.config = s.config ∧ t.phase = s.phase ∧ t.input = s.input ∧ t.emitted = s.emitted

/-- R131, R181: a load changes its destination register and `pc` only: no flag whatever the marker is, no memory. -/
def Obligations.LoadFrame : Prop :=
  ∀ (c : Cond) (f : Bool) (rd rn : RegIdx) (s t : State), exec (.ldr c f rd rn) s = .next t →
    (∀ j, rd ≠ some j → rdreg t (some j) = rdreg s (some j)) ∧ t.flags = s.flags ∧
    (∀ k, Memory.read t.mem k = Memory.read s.mem k) ∧
    t.prog = s.prog ∧ t.config = s.config ∧ t.phase = s.phase ∧ t.input = s.input ∧ t.emitted = s.emitted

/-- R131, R182: a store changes no register and no flag, and no memory word but the one its address selects when it
is in the window. -/
def Obligations.StoreFrame : Prop :=
  ∀ (c : Cond) (f : Bool) (rd rn : RegIdx) (s t : State), exec (.str c f rd rn) s = .next t →
    (∀ j, rdreg t j = rdreg s j) ∧ t.flags = s.flags ∧
    (∀ k, (inWindow s.config.memBase (effAddr s rn) = true → k ≠ wordIndex s.config.memBase (effAddr s rn)) →
      Memory.read t.mem k = Memory.read s.mem k) ∧
    t.prog = s.prog ∧ t.config = s.config ∧ t.phase = s.phase ∧ t.input = s.input ∧ t.emitted = s.emitted

/-- R131, R194, R205 to R207: branches, `NOP` and the invalid kind change `pc` only. -/
def Obligations.BranchAndNopFrame : Prop :=
  ∀ (c : Cond) (f hl : Bool) (l : Option Text) (target : Option Nat) (s t : State),
    ∀ i ∈ [Instr.b c f l target, .beq f l target, .nop c f, .invalid hl c], exec i s = .next t →
      t = { s with pc := t.pc }

/-- R34 and the table of R131, of every step of the RUN phase: the one register it can change is the record's `rd`, and
only for the kinds that write a register; the one memory word it can change is the one its address selects, and only for
a store in the window; a label-only and a skipped step change no register, no word and no flag. -/
def Obligations.OneWritePerStep : Prop :=
  ∀ (s t : State) (r : InstrRecord), s.phase = .run → s.prog[s.pc]? = some r → step s = .next t →
    (∀ i, (r.kind ∈ [Kind.str, .cmp, .b, .nop, .invalid] ∨ r.rd ≠ some i) → rdreg t (some i) = rdreg s (some i)) ∧
    (∀ k, (r.kind = .str → inWindow s.config.memBase (effAddr s r.rn) = true →
        k ≠ wordIndex s.config.memBase (effAddr s r.rn)) →
      Memory.read t.mem k = Memory.read s.mem k) ∧
    (r.kind = .invalid ∨ condHolds r.cond s.flags = false → t.regs = s.regs ∧ t.mem = s.mem ∧ t.flags = s.flags)

/-- R24: `C` is read by no instruction: from two states that differ in `C` only, every instruction gives next states
that differ in `C` at most. -/
def Obligations.CarryIsNeverRead : Prop :=
  ∀ (i : Instr) (s t : State) (b : Bool), exec i s = .next t →
    ∃ t', exec i (withCarry b s) = .next t' ∧ withCarry false t' = withCarry false t

/-! ### Memory -/

/-- R54: the platform's base address, whatever it is, meets the constraints. That the platform's value is unknown within
them is assumption log 1 (the model's choice). -/
def Obligations.PlatformBaseAddress : Prop :=
  platformConfig.memBase.toNat % 4 = 0 ∧ platformConfig.memBase.toNat + 19 ≤ 2 ^ 32 - 1

/-- R41 and R42: under R54's constraints exactly five addresses are in the window, and each selects its word. -/
def Obligations.ExactlyFiveAddresses : Prop :=
  ∀ (cfg : Config) (addr : Word), cfg.baseOk →
    (inWindow cfg.memBase addr = true ↔ ∃ k, k < 5 ∧ addr = cfg.memBase + BitVec.ofNat 32 (4 * k)) ∧
    ∀ k, k < 5 → addr = cfg.memBase + BitVec.ofNat 32 (4 * k) → wordIndex cfg.memBase addr = k

/-- R48, R52 (b): a load from the word a store has just written reads the stored value, through whatever registers the
two addresses are given. -/
def Obligations.LoadAfterStore : Prop :=
  ∀ (f f' : Bool) (rd rn rd' rn' : RegIdx) (s t u : State),
    Memory.wf s.mem → inWindow s.config.memBase (effAddr s rn) = true →
    exec (.str .al f rd rn) s = .next t → effAddr t rn' = effAddr s rn → exec (.ldr .al f' rd' rn') t = .next u →
    u.regs = writeReg s.regs rd' (rdreg s rd) ∧ u.flags = s.flags

/-! ### The Program Resolver -/

/-- R190, R191: the resolver finds the lowest index that declares the label, and finds none exactly when nothing
declares it or the label is absent. -/
def Obligations.FirstDeclarationWins : Prop :=
  ∀ (prog : List InstrRecord) (t : Text),
    (∀ j : Nat, findLabel prog (some t) = some j ↔
      ((∃ r, prog[j]? = some r ∧ r.hasLabel = true ∧ declLabel r = some t) ∧
        ∀ k, k < j → ∀ r, prog[k]? = some r → ¬ (r.hasLabel = true ∧ declLabel r = some t))) ∧
    (findLabel prog (some t) = none ↔ ∀ r ∈ prog, ¬ (r.hasLabel = true ∧ declLabel r = some t)) ∧
    findLabel prog none = none

/-- R190: the RESOLVE step (that RESOLVE is one step is assumption log 9, the model's choice) resolves the whole program. Of a branch
record it writes the target, with the lowest index whose record declares the target label, or with none; every other
field and every other record stays as it is. Labels match when they are equal texts, the spec's own decision D30
(assumption log 13). A target is an index of the program (R196), and resolving again changes nothing (R193). -/
def Obligations.ResolveWritesOnlyTargets : Prop :=
  (∀ s : State, s.phase = .resolve →
    step s = .next { s with prog := resolve s.config s.prog, phase := .run }) ∧
  ∀ (cfg : Config) (prog : List InstrRecord),
    (resolve cfg prog).length = prog.length ∧
    (∀ (i : Nat) (r : InstrRecord), prog[i]? = some r → ∃ r', (resolve cfg prog)[i]? = some r' ∧
      r' = { r with target := r'.target } ∧
      (r.kind = .b → ∀ j, r'.target = some j ↔ ∃ l, targetLabel cfg.labelFields r = some l ∧
        (∃ d, prog[j]? = some d ∧ d.hasLabel = true ∧ declLabel d = some l) ∧
        ∀ k, k < j → ∀ d, prog[k]? = some d → ¬ (d.hasLabel = true ∧ declLabel d = some l)) ∧
      (r.kind = .b → ∀ j, r'.target = some j → j < prog.length) ∧
      (r.kind ≠ .b → r' = r)) ∧
    resolve cfg (resolve cfg prog) = resolve cfg prog

/-- R192: a branch whose label nothing declares, or that has no target label, falls through, even with `Z` set. -/
def Obligations.UnresolvedBranchFallsThrough : Prop :=
  ∀ (s t : State) (r : InstrRecord),
    s.phase = .resolve → step s = .next t → s.prog[t.pc]? = some r → r.kind = .b →
    (∀ l, targetLabel s.config.labelFields r = some l → ∀ d ∈ s.prog, ¬ (d.hasLabel = true ∧ declLabel d = some l)) →
    ∃ u, step t = .next u ∧ u.pc = t.pc + 1 ∧ u.regs = t.regs ∧ u.flags = t.flags ∧ u.mem = t.mem

/-- R193, R27, R55: from the RUN phase on no step changes a record, the configuration or the phase order. -/
def Obligations.ProgramFixedInRun : Prop :=
  ∀ s t : State, s.phase = .run ∨ s.phase = .halt → step s = .next t →
    t.prog = s.prog ∧ t.config = s.config ∧ t.input = s.input ∧ (t.phase = s.phase ∨ t.phase = .halt)

/-! ### The Text Decoder -/

/-- A few lines written out from the spec, and the instructions they stand for (30_encoding.md R83), and two words of
the opcode table, by the kind codes of R85; that the second word, which has condition code 1 above the kind code, is the
row `BEQ` is assumption log 4's choice (the model's choice). A sanity statement. -/
def Obligations.WrittenLinesDecode : Prop :=
  ∀ cfg : Config, cfg.mnemonicTable = defaultMnemonicTable →
    (decodeLine cfg (ascii "SUBS R2, R0, #5")).instr = .sub .al true (some 2) (some 0) (.imm 5#32) ∧
    (decodeLine cfg (ascii "LOOP:   ADD   R1,R0 ,  R2")).instr = .add .al false (some 1) (some 0) (.reg 2) ∧
    (decodeLine cfg (ascii "LDR R5, [R2]")).instr = .ldr .al false (some 5) (some 2) ∧
    (decodeLine cfg (ascii "MVNEQ R3, R2")).instr = .mvn .eq false (some 3) (.reg 2) ∧
    (decodeLine cfg (ascii "hello world")).instr = .invalid true .al ∧
    decodeTableWord 8 2 = some (.add .al false none none .unset) ∧
    decodeTableWord 8 0x1e = some (.beq false none none)

/-- DECODE AND ENCODE AGREE (R62, R68, R72 to R84): the line written for any well-formed instruction, with or without
a label word, with every condition, marker, register index, immediate and label name, lies in the input contract and
decodes to that instruction and that declaration. The label field of a labelled branch is R93's business. -/
def Obligations.DecodeOfEncode : Prop :=
  ∀ (cfg : Config) (lbl : Option Text) (i : Instr),
    cfg.mnemonicTable = defaultMnemonicTable → lineWellFormed lbl i = true →
    ∃ r, decode cfg (encode lbl i) = .ok r ∧ r.instr = i.unresolved ∧ r.raw = encode lbl i ∧
      r.hasLabel = lbl.isSome ∧ (i.kind ≠ .b ∨ cfg.labelFields = .separate → r.label = lbl)

/-- R69, R70, R76 to R82, R93: which operand fills which field, for a bare instruction and for a labelled one (`w` is its
mnemonic, `opText` its operand text). That the declared label is the first word less one trailing colon is the spec's own
decision D7, and what missing and extra operands do its decision D15 (assumption log 13). The target label of a branch is
its first operand, absent where there is none (R80, R192, D29; assumption log 3). Under `LABEL_FIELDS = shared` the
operand of a labelled branch takes the place of the declared label (R93, D8). -/
def Obligations.OperandFieldsByKind : Prop :=
  ∀ (cfg : Config) (line w opText : Text) (k : Kind) (c : Cond) (f : Bool),
    splitFirstWord line = (w, opText) ∨
      ((decodeMnemonic cfg.mnemonicTable (splitFirstWord line).1).kind = .invalid ∧ (splitFirstWord line).2 ≠ [] ∧
        splitFirstWord (splitFirstWord line).2 = (w, opText)) →
    decodeMnemonic cfg.mnemonicTable w = { kind := k, cond := c, sflag := f } → k ≠ .invalid →
    let ops := tokenize opText
    let r := decodeLine cfg line
    r.kind = k ∧ r.cond = c ∧ r.raw = line ∧ r.target = none ∧ r.sflag = (f || k == .cmp) ∧
    (r.hasLabel = true ↔ (decodeMnemonic cfg.mnemonicTable (splitFirstWord line).1).kind = .invalid) ∧
    (k = .mov ∨ k = .mvn → r.rd = parseReg ops[0]? ∧ r.rn = none ∧ r.op2 = parseOp2 ops[1]?) ∧
    (k ∈ [Kind.add, .sub, .and, .orr, .eor, .lsl, .lsr] →
      r.rd = parseReg ops[0]? ∧ r.rn = parseReg ops[1]? ∧ r.op2 = parseOp2 ops[2]?) ∧
    (k = .cmp → r.rd = none ∧ r.rn = parseReg ops[0]? ∧ r.op2 = parseOp2 ops[1]?) ∧
    (k = .ldr ∨ k = .str → r.rd = parseReg ops[0]? ∧ r.rn = parseReg ops[1]? ∧ r.op2 = .unset) ∧
    (k = .b ∨ k = .nop → r.rd = none ∧ r.rn = none ∧ r.op2 = .unset) ∧
    (k ≠ .b → r.hasLabel = true → r.label = some (labelText (splitFirstWord line).1)) ∧
    (k = .b → targetLabel cfg.labelFields r = ops[0]?) ∧
    (k = .b → r.hasLabel = true → (cfg.labelFields = .separate ∨ ops = []) →
      declLabel r = some (labelText (splitFirstWord line).1)) ∧
    (k = .b → cfg.labelFields = .shared → ops ≠ [] → declLabel r = ops[0]?)

/-- R65 to R68, R86: under any table whose keys meet R67's constraints, every key followed by any condition suffix and
any marker decodes to its kind, that condition and that marker. -/
def Obligations.EverySpellingDecodes : Prop :=
  ∀ (tbl : List (Text × Kind)) (e : Text × Kind) (c : Cond) (f : Bool), tableOk tbl → e ∈ tbl →
    decodeMnemonic tbl (mnemonicToken e.1 c f) = { kind := e.2, cond := c, sflag := f }

/-- R67: the default table meets the two constraints. -/
def Obligations.DefaultTableReachable : Prop := tableOk defaultMnemonicTable

/-- R69, R70, R71, R92: a line whose first word, and second word if it has one, is no mnemonic becomes a label-only
record that declares the first word less one trailing colon, with every other field at its default. The trailing colon
is the spec's own decision D7 (R70) and the default fields its decision D16 (R92) (assumption log 13). -/
def Obligations.UnrecognisedLineIsLabelOnly : Prop :=
  ∀ (cfg : Config) (line : Text),
    (decodeMnemonic cfg.mnemonicTable (splitFirstWord line).1).kind = .invalid →
    ((splitFirstWord line).2 ≠ [] →
      (decodeMnemonic cfg.mnemonicTable (splitFirstWord (splitFirstWord line).2).1).kind = .invalid) →
    decodeLine cfg line =
      { kind := .invalid, raw := line, cond := .al, sflag := false, label := some (labelText (splitFirstWord line).1),
        tlabel := none, hasLabel := true, rd := none, rn := none, op2 := .unset, target := none }

/-- R31, R76 to R81, R92: every record the decoder produces has the canonical shape, keeps the line as its text and
has no target yet; its instruction is one of the kind decoded and is well-formed but for characters that no line of
the contract holds. -/
def Obligations.DecodedRecordsCanonical : Prop :=
  ∀ (cfg : Config) (line : Text) (r : InstrRecord), decode cfg line = .ok r →
    canonicalRecord r ∧ r.raw = line ∧ r.target = none ∧ r.instr.kind = r.kind ∧ r.instr.wellFormed = true

/-- R78: `CMP` and `CMPS` decode to the same record but for `raw`, under every condition and with any operand text. -/
def Obligations.CompareMarkerIgnored : Prop :=
  ∀ (cfg : Config) (c : Cond) (ops : Text), cfg.mnemonicTable = defaultMnemonicTable →
    let plain := decodeLine cfg (mnemonicToken (ascii "CMP") c false ++ ch ' ' :: ops)
    let marked := decodeLine cfg (mnemonicToken (ascii "CMP") c true ++ ch ' ' :: ops)
    plain.kind = .cmp ∧ plain.sflag = true ∧ { marked with raw := plain.raw } = plain

/-- R73: one pair of brackets around a token that has none makes no difference to the register parser. -/
def Obligations.RegisterBracketsOptional : Prop :=
  ∀ t : Text, t.head? ≠ some (ch '[') →
    parseReg (some (ch '[' :: (t ++ [ch ']']))) = parseReg (some t)

/-- R93: on a line that is not a labelled branch the two settings of `LABEL_FIELDS` give the same instruction and the
same label content. -/
def Obligations.LabelFieldsAgree : Prop :=
  ∀ (cfg cfg' : Config) (line : Text), cfg'.mnemonicTable = cfg.mnemonicTable →
    let r := decodeLine cfg line
    let r' := decodeLine cfg' line
    ¬ (r.kind = .b ∧ r.hasLabel = true) →
    r'.instr = r.instr ∧ r'.hasLabel = r.hasLabel ∧ labelContent cfg' r' = labelContent cfg r

/-- R60, D31: the decoder rejects a line exactly when it lies outside the input contract, with the line-end characters
of assumption log 6 (the model's choice), and never otherwise (R95). -/
def Obligations.DecoderRejectsOnlyOutsideContract : Prop :=
  ∀ (cfg : Config) (line : Text),
    (∃ p, decode cfg line = .error p) ↔
      (line = [] ∨ (∃ c, line.head? = some c ∧ isWs c = true) ∨ (∃ c, line.getLast? = some c ∧ isWs c = true) ∨
        ∃ c ∈ line, c = 0x0A#8 ∨ c = 0x0D#8)

/-- R28, R85: the kind and condition codes, the four coded fields of a record read back from its coded form, and the
two unused codes refused. The places of the fields above the kind code are assumption log 4's (the model's choice). -/
def Obligations.RecordCodesReadBack : Prop :=
  (∀ r : InstrRecord, (r.kind = .cmp → r.sflag = true) → ∃ r', recordOfHeader r.header = some r' ∧
    r'.kind = r.kind ∧ r'.cond = r.cond ∧ r'.sflag = r.sflag ∧ r'.hasLabel = r.hasLabel) ∧
  (∀ r : InstrRecord, r.header % 16 = r.kind.code ∧ r.kind.code ≤ 14 ∧ r.cond.code ≤ 6) ∧
  (∀ w, w % 16 = 15 ∨ w / 16 % 8 = 7 → recordOfHeader w = none)

/-! ### Phases, runs and the invariant -/

/-- R83, R95, R241: a LOAD step decodes the next line of the contract and appends its record; with no line left LOAD
gives way to RESOLVE. That LOAD takes one step a line, and one more when no line is left, is assumption log 9 (the
model's choice). Registers, flags, memory and `pc` are not touched. A line outside the contract is refused under
its name (R60, D31, U7; the line-end characters are assumption log 6's, the model's choice). -/
def Obligations.LoadStepAppendsRecord : Prop :=
  ∀ s : State, s.phase = .load →
    (s.input = [] → step s = .next { s with phase := .resolve }) ∧
    (∀ line rest, s.input = line :: rest → lineProblem line = none →
      step s = .next { s with input := rest, prog := s.prog ++ [decodeLine s.config line] }) ∧
    (∀ line rest p, s.input = line :: rest → lineProblem line = some p →
      step s = .refused (.lineOutsideContract p))

/-- R241, R95: from the start of a run whose lines lie in the contract, one step a line and two more lead to RUN with
one resolved record per line, in line order, the machine state still as at reset. -/
def Obligations.WholeProgramLoads : Prop :=
  ∀ (cfg : Config) (lines : List Text), (∀ l ∈ lines, lineProblem l = none) →
    Host.Core.run Sys2Proof.core (lines.length + 2) (State.start cfg lines) =
      .next { State.resetWith cfg with phase := .run, prog := resolve cfg (lines.map (decodeLine cfg)) }

/-- R220: no instruction and no phase stops the machine: outside LOAD every step goes on, and every instruction,
well-formed or not, gives a next state. -/
def Obligations.NothingStops : Prop :=
  (∀ (i : Instr) (s : State), ∃ t, exec i s = .next t) ∧
  (∀ s : State, s.phase ≠ .load → Continues s) ∧
  (∀ (s : State) (x : Fault), step s ≠ .fault x)

/-- R95, R220, R221: a run whose lines lie in the input contract never stops, at no number of steps. -/
def Obligations.RunNeverStops : Prop :=
  ∀ (cfg : Config) (lines : List Text), (∀ l ∈ lines, lineProblem l = none) →
    ∀ k, ∃ t, Host.Core.run Sys2Proof.core k (State.start cfg lines) = .next t

/-- The invariant of a run holds at the start of every run of a block whose base address meets R54's constraints, this
platform's among them. -/
def Obligations.InvariantAtStart : Prop :=
  (∀ (cfg : Config) (lines : List Text), cfg.baseOk → Inv (State.start cfg lines)) ∧ Inv State.reset

/-- EVERY STEP KEEPS THE INVARIANT: canonical memory, `pc` at most `N` (R25), records of the decoder's shape (R31),
targets within the program and as their labels give (R190, R193, R196), a machine still at reset before RUN (R241),
a run that ends at `pc = N` (R245). -/
def Obligations.InvariantKept : Prop :=
  ∀ s t : State, Inv s → step s = .next t → Inv t
end

