-- ==== Sys2Proof/Laws/State.lean ====
section
/-! SUPPORT. One lemma per field per update of the state. -/

namespace Sys2Proof.Machine

open Sys2Proof

@[simp] theorem wrreg_config (s : State) (i : RegIdx) (v : Word) : (wrreg s i v).config = s.config := rfl
@[simp] theorem wrreg_phase (s : State) (i : RegIdx) (v : Word) : (wrreg s i v).phase = s.phase := rfl
@[simp] theorem wrreg_input (s : State) (i : RegIdx) (v : Word) : (wrreg s i v).input = s.input := rfl
@[simp] theorem wrreg_prog (s : State) (i : RegIdx) (v : Word) : (wrreg s i v).prog = s.prog := rfl
@[simp] theorem wrreg_regs (s : State) (i : RegIdx) (v : Word) : (wrreg s i v).regs = writeReg s.regs i v := rfl
@[simp] theorem wrreg_flags (s : State) (i : RegIdx) (v : Word) : (wrreg s i v).flags = s.flags := rfl
@[simp] theorem wrreg_mem (s : State) (i : RegIdx) (v : Word) : (wrreg s i v).mem = s.mem := rfl
@[simp] theorem wrreg_pc (s : State) (i : RegIdx) (v : Word) : (wrreg s i v).pc = s.pc := rfl
@[simp] theorem wrreg_emitted (s : State) (i : RegIdx) (v : Word) : (wrreg s i v).emitted = s.emitted := rfl

@[simp] theorem setFlags_config (s : State) (f : Flags) : (setFlags s f).config = s.config := rfl
@[simp] theorem setFlags_phase (s : State) (f : Flags) : (setFlags s f).phase = s.phase := rfl
@[simp] theorem setFlags_input (s : State) (f : Flags) : (setFlags s f).input = s.input := rfl
@[simp] theorem setFlags_prog (s : State) (f : Flags) : (setFlags s f).prog = s.prog := rfl
@[simp] theorem setFlags_regs (s : State) (f : Flags) : (setFlags s f).regs = s.regs := rfl
@[simp] theorem setFlags_flags (s : State) (f : Flags) : (setFlags s f).flags = f := rfl
@[simp] theorem setFlags_mem (s : State) (f : Flags) : (setFlags s f).mem = s.mem := rfl
@[simp] theorem setFlags_pc (s : State) (f : Flags) : (setFlags s f).pc = s.pc := rfl
@[simp] theorem setFlags_emitted (s : State) (f : Flags) : (setFlags s f).emitted = s.emitted := rfl

@[simp] theorem setPc_config (s : State) (n : Nat) : (setPc s n).config = s.config := rfl
@[simp] theorem setPc_phase (s : State) (n : Nat) : (setPc s n).phase = s.phase := rfl
@[simp] theorem setPc_input (s : State) (n : Nat) : (setPc s n).input = s.input := rfl
@[simp] theorem setPc_prog (s : State) (n : Nat) : (setPc s n).prog = s.prog := rfl
@[simp] theorem setPc_regs (s : State) (n : Nat) : (setPc s n).regs = s.regs := rfl
@[simp] theorem setPc_flags (s : State) (n : Nat) : (setPc s n).flags = s.flags := rfl
@[simp] theorem setPc_mem (s : State) (n : Nat) : (setPc s n).mem = s.mem := rfl
@[simp] theorem setPc_pc (s : State) (n : Nat) : (setPc s n).pc = n := rfl
@[simp] theorem setPc_emitted (s : State) (n : Nat) : (setPc s n).emitted = s.emitted := rfl

@[simp] theorem advance_config (s : State) : (advance s).config = s.config := rfl
@[simp] theorem advance_phase (s : State) : (advance s).phase = s.phase := rfl
@[simp] theorem advance_input (s : State) : (advance s).input = s.input := rfl
@[simp] theorem advance_prog (s : State) : (advance s).prog = s.prog := rfl
@[simp] theorem advance_regs (s : State) : (advance s).regs = s.regs := rfl
@[simp] theorem advance_flags (s : State) : (advance s).flags = s.flags := rfl
@[simp] theorem advance_mem (s : State) : (advance s).mem = s.mem := rfl
@[simp] theorem advance_pc (s : State) : (advance s).pc = s.pc + 1 := rfl
@[simp] theorem advance_emitted (s : State) : (advance s).emitted = s.emitted := rfl

@[simp] theorem memWrite_config (s : State) (addr v : Word) : (memWrite s addr v).config = s.config := rfl
@[simp] theorem memWrite_phase (s : State) (addr v : Word) : (memWrite s addr v).phase = s.phase := rfl
@[simp] theorem memWrite_input (s : State) (addr v : Word) : (memWrite s addr v).input = s.input := rfl
@[simp] theorem memWrite_prog (s : State) (addr v : Word) : (memWrite s addr v).prog = s.prog := rfl
@[simp] theorem memWrite_regs (s : State) (addr v : Word) : (memWrite s addr v).regs = s.regs := rfl
@[simp] theorem memWrite_flags (s : State) (addr v : Word) : (memWrite s addr v).flags = s.flags := rfl
@[simp] theorem memWrite_mem (s : State) (addr v : Word) : (memWrite s addr v).mem = Memory.write s.mem (wordIndex s.config.memBase addr) v := rfl
@[simp] theorem memWrite_pc (s : State) (addr v : Word) : (memWrite s addr v).pc = s.pc := rfl
@[simp] theorem memWrite_emitted (s : State) (addr v : Word) : (memWrite s addr v).emitted = s.emitted := rfl

@[simp] theorem emitSnapshot_config (raw : Text) (s : State) : (emitSnapshot raw s).config = s.config := rfl
@[simp] theorem emitSnapshot_phase (raw : Text) (s : State) : (emitSnapshot raw s).phase = s.phase := rfl
@[simp] theorem emitSnapshot_input (raw : Text) (s : State) : (emitSnapshot raw s).input = s.input := rfl
@[simp] theorem emitSnapshot_prog (raw : Text) (s : State) : (emitSnapshot raw s).prog = s.prog := rfl
@[simp] theorem emitSnapshot_regs (raw : Text) (s : State) : (emitSnapshot raw s).regs = s.regs := rfl
@[simp] theorem emitSnapshot_flags (raw : Text) (s : State) : (emitSnapshot raw s).flags = s.flags := rfl
@[simp] theorem emitSnapshot_mem (raw : Text) (s : State) : (emitSnapshot raw s).mem = s.mem := rfl
@[simp] theorem emitSnapshot_pc (raw : Text) (s : State) : (emitSnapshot raw s).pc = s.pc := rfl
@[simp] theorem emitSnapshot_emitted (raw : Text) (s : State) : (emitSnapshot raw s).emitted = snapshotOf raw s :: s.emitted := rfl

@[simp] theorem finish_config (s : State) (rd : RegIdx) (r : Word) (f : Bool) (fl : Flags) :
    (finish s rd r f fl).config = s.config := rfl
@[simp] theorem finish_phase (s : State) (rd : RegIdx) (r : Word) (f : Bool) (fl : Flags) :
    (finish s rd r f fl).phase = s.phase := rfl
@[simp] theorem finish_input (s : State) (rd : RegIdx) (r : Word) (f : Bool) (fl : Flags) :
    (finish s rd r f fl).input = s.input := rfl
@[simp] theorem finish_prog (s : State) (rd : RegIdx) (r : Word) (f : Bool) (fl : Flags) :
    (finish s rd r f fl).prog = s.prog := rfl
@[simp] theorem finish_regs (s : State) (rd : RegIdx) (r : Word) (f : Bool) (fl : Flags) :
    (finish s rd r f fl).regs = writeReg s.regs rd r := rfl
@[simp] theorem finish_flags (s : State) (rd : RegIdx) (r : Word) (f : Bool) (fl : Flags) :
    (finish s rd r f fl).flags = (if f then fl else s.flags) := rfl
@[simp] theorem finish_mem (s : State) (rd : RegIdx) (r : Word) (f : Bool) (fl : Flags) :
    (finish s rd r f fl).mem = s.mem := rfl
@[simp] theorem finish_pc (s : State) (rd : RegIdx) (r : Word) (f : Bool) (fl : Flags) :
    (finish s rd r f fl).pc = s.pc + 1 := rfl
@[simp] theorem finish_emitted (s : State) (rd : RegIdx) (r : Word) (f : Bool) (fl : Flags) :
    (finish s rd r f fl).emitted = s.emitted := rfl

end Sys2Proof.Machine
end

