-- ==== Sys2Proof/Laws/Ops.lean ====
section
/-! SUPPORT. One law per shared operation over registers, memory and the window, saying what it can do. -/

namespace Sys2Proof.Machine

open Sys2Proof Host

/-! ### The parameters of R7 as numerals -/

@[simp] theorem two_pow_xlen : 2 ^ xlen = 4294967296 := rfl

theorem signBit_eq (w : Word) : signBit w = w.getLsbD 31 := rfl

theorem baseOk_iff (cfg : Config) :
    cfg.baseOk ↔ cfg.memBase.toNat % 4 = 0 ∧ cfg.memBase.toNat + 19 ≤ 4294967295 := Iff.rfl

/-- The platform's base address as a number: no reduction takes place. -/
theorem platform_memBase : platformConfig.memBase.toNat = 4 * Config.platformMemBase.val := by
  have h : Config.platformMemBase.val < 1073741820 := Config.platformMemBase.isLt
  simp only [platformConfig, BitVec.toNat_ofNat, Config.wordBytes]
  omega

/-! ### Registers -/

@[simp] theorem readReg_none (rs : Regs) : readReg rs none = 0#32 := rfl

theorem readReg_in (rs : Regs) {i : Nat} (h : i < 12) : readReg rs (some i) = rs[i] := by
  simp [readReg, h]

theorem readReg_out (rs : Regs) {i : Nat} (h : 12 ≤ i) : readReg rs (some i) = 0#32 := by
  simp [readReg, Vector.getElem?_eq_none h]

@[simp] theorem writeReg_none (rs : Regs) (v : Word) : writeReg rs none v = rs := rfl

theorem writeReg_out (rs : Regs) {i : Nat} (v : Word) (h : 12 ≤ i) : writeReg rs (some i) v = rs := by
  ext j hj
  have hj' : j < 12 := hj
  have : i ≠ j := by omega
  simp [writeReg, this]

theorem writeReg_getElem (rs : Regs) (i : Nat) (v : Word) {j : Nat} (h : j < 12) :
    (writeReg rs (some i) v)[j] = if i = j then v else rs[j] := by
  simp [writeReg, Vector.getElem_setIfInBounds]

/-- What a register write can do, seen through a read: the register written, if it exists, takes the value. -/
theorem readReg_writeReg (rs : Regs) (i : RegIdx) (v : Word) (j : Nat) :
    readReg (writeReg rs i v) (some j) = if i = some j ∧ j < 12 then v else readReg rs (some j) := by
  rcases Nat.lt_or_ge j 12 with hj | hj
  · cases i with
    | none => simp
    | some k => simp [readReg_in _ hj, writeReg_getElem _ _ _ hj, hj]
  · rw [readReg_out _ hj, readReg_out _ hj]
    have : ¬ j < 12 := by omega
    simp [this]

/-! ### Memory -/

theorem Memory.read_nil (k : Nat) : Memory.read [] k = Memory.unlisted := rfl

theorem Memory.read_cons (j : Nat) (w : Word) (m : Memory) (k : Nat) :
    Memory.read ((j, w) :: m) k = if k = j then w else Memory.read m k := by
  by_cases h : k = j
  · subst h; simp [Memory.read]
  · have : (k == j) = false := by simpa using h
    simp [Memory.read, List.lookup, this, h]

/-- A word number below every listed one is unlisted. -/
theorem Memory.read_below {m : Memory} {k : Nat} (h : ∀ e ∈ m, k < e.1) :
    Memory.read m k = Memory.unlisted := by
  induction m with
  | nil => rfl
  | cons e m ih =>
    obtain ⟨j, w⟩ := e
    have hj : k ≠ j := by have := h (j, w) (by simp); simp at this; omega
    rw [Memory.read_cons, if_neg hj]
    exact ih fun e he => h e (by simp [he])

/-- Reading another word than the one written gives what it gave before, in any memory. -/
theorem Memory.read_write_other (m : Memory) {k j : Nat} (v : Word) (h : j ≠ k) :
    Memory.read (Memory.write m k v) j = Memory.read m j := by
  induction m with
  | nil => simp only [Memory.write]; split <;> simp [Memory.read_cons, h]
  | cons e m ih =>
    obtain ⟨i, w⟩ := e
    simp only [Memory.write]
    split
    · split <;> simp [Memory.read_cons, h]
    · split
      · next hki => subst hki; split <;> simp [Memory.read_cons, h]
      · simp [Memory.read_cons, ih]

/-- Reading the word just written gives the value written, in a memory in canonical form. -/
theorem Memory.read_write_same {m : Memory} (hm : Memory.wf m) (k : Nat) (v : Word) :
    Memory.read (Memory.write m k v) k = v := by
  induction m with
  | nil => simp only [Memory.write]; split <;> simp_all [Memory.read_cons, Memory.read_nil]
  | cons e m ih =>
    obtain ⟨i, w⟩ := e
    obtain ⟨hp, hv⟩ := hm
    have hlt : ∀ e ∈ m, i < e.1 := (List.pairwise_cons.mp hp).1
    have hm' : Memory.wf m := ⟨(List.pairwise_cons.mp hp).2, fun e he => hv e (by simp [he])⟩
    simp only [Memory.write]
    split
    · next hki =>
      split
      · next h0 =>
        rw [h0]
        refine Memory.read_below fun e he => ?_
        rcases List.mem_cons.mp he with rfl | he
        · exact hki
        · have := hlt e he; omega
      · simp [Memory.read_cons]
    · split
      · next hki =>
        split
        · next h0 =>
          rw [h0]
          exact Memory.read_below fun e he => by have := hlt e he; omega
        · simp [Memory.read_cons]
      · next hki => simp [Memory.read_cons, hki, ih hm']

theorem Memory.mem_write {m : Memory} {k : Nat} {v : Word} {e : Nat × Word} (h : e ∈ Memory.write m k v) :
    (e = (k, v) ∧ v ≠ Memory.unlisted) ∨ e ∈ m := by
  induction m with
  | nil =>
    simp only [Memory.write] at h
    split at h <;> simp_all
  | cons d m ih =>
    obtain ⟨i, w⟩ := d
    simp only [Memory.write] at h
    split at h
    · split at h <;> simp_all
    · split at h
      · next hki =>
        subst hki
        split at h
        · exact .inr (by simp [h])
        · next hv => rcases List.mem_cons.mp h with rfl | h <;> simp_all
      · rcases List.mem_cons.mp h with rfl | h
        · simp
        · rcases ih h with h | h
          · exact .inl h
          · exact .inr (by simp [h])

/-- A write to one of the five words keeps the canonical form. -/
theorem Memory.write_wf {m : Memory} (hm : Memory.wf m) {k : Nat} (hk : k < 5) (v : Word) :
    Memory.wf (Memory.write m k v) := by
  refine ⟨?_, fun e he => ?_⟩
  · have hp := hm.1
    clear hm
    induction m with
    | nil => simp only [Memory.write]; split <;> simp
    | cons d m ih =>
      obtain ⟨i, w⟩ := d
      obtain ⟨hlt, hp'⟩ := List.pairwise_cons.mp hp
      simp only [Memory.write]
      split
      · next hki =>
        split
        · exact hp
        · refine List.pairwise_cons.mpr ⟨fun e he => ?_, hp⟩
          rcases List.mem_cons.mp he with rfl | he
          · exact hki
          · have := hlt e he; simp at *; omega
      · split
        · next hki =>
          subst hki
          split
          · exact hp'
          · exact List.pairwise_cons.mpr ⟨hlt, hp'⟩
        · refine List.pairwise_cons.mpr ⟨fun e he => ?_, ih hp'⟩
          rcases Memory.mem_write he with ⟨rfl, -⟩ | he
          · simp at *; omega
          · exact hlt e he
  · rcases Memory.mem_write he with ⟨rfl, hv⟩ | he
    · exact ⟨hk, hv⟩
    · exact hm.2 e he

/-- Two memories in canonical form that read alike are equal. -/
theorem Memory.eq_of_read {m m' : Memory} (hm : Memory.wf m) (hm' : Memory.wf m')
    (h : ∀ k, Memory.read m k = Memory.read m' k) : m = m' := by
  have below : ∀ {j w} {l : Memory}, Memory.wf ((j, w) :: l) → Memory.read l j = Memory.unlisted :=
    fun hl => Memory.read_below (List.pairwise_cons.mp hl.1).1
  have tail : ∀ {e} {l : Memory}, Memory.wf (e :: l) → Memory.wf l :=
    fun hl => ⟨(List.pairwise_cons.mp hl.1).2, fun e he => hl.2 e (by simp [he])⟩
  have low : ∀ {j w k} {l : Memory}, Memory.wf ((j, w) :: l) → k < j →
      Memory.read ((j, w) :: l) k = Memory.unlisted := by
    intro j w k l hl hk
    refine Memory.read_below fun e he => ?_
    rcases List.mem_cons.mp he with rfl | he
    · exact hk
    · have := (List.pairwise_cons.mp hl.1).1 e he; simp at *; omega
  have head : ∀ {j w} {l : Memory}, Memory.wf ((j, w) :: l) → w ≠ Memory.unlisted :=
    fun {j w l} hl => (hl.2 (j, w) (by simp)).2
  induction m generalizing m' with
  | nil =>
    cases m' with
    | nil => rfl
    | cons e l =>
      obtain ⟨j, w⟩ := e
      have := h j
      rw [Memory.read_cons, if_pos rfl] at this
      exact absurd this.symm (head hm')
  | cons e m ih =>
    obtain ⟨i, v⟩ := e
    cases m' with
    | nil =>
      have := h i
      rw [Memory.read_cons, if_pos rfl] at this
      exact absurd this (head hm)
    | cons e l =>
      obtain ⟨j, w⟩ := e
      have hij : i = j := by
        rcases Nat.lt_trichotomy i j with hlt | heq | hgt
        · have := h i
          rw [low hm' hlt, Memory.read_cons, if_pos rfl] at this
          exact absurd this (head hm)
        · exact heq
        · have := h j
          rw [low hm hgt, Memory.read_cons, if_pos rfl] at this
          exact absurd this.symm (head hm')
      subst hij
      have hvw : v = w := by have := h i; rwa [Memory.read_cons, Memory.read_cons, if_pos rfl, if_pos rfl] at this
      subst hvw
      rw [ih (tail hm) (tail hm')]
      intro k
      by_cases hk : k = i
      · rw [hk, below hm, below hm']
      · have := h k; rwa [Memory.read_cons, Memory.read_cons, if_neg hk, if_neg hk] at this

/-! ### The window -/

/-- What the window test says, in numbers. -/
theorem inWindow_iff (base addr : Word) :
    inWindow base addr = true ↔
      base.toNat ≤ addr.toNat ∧ addr.toNat - base.toNat ≤ 19 ∧ (addr.toNat - base.toNat) % 4 = 0 := by
  simp [inWindow, and_assoc]

/-- An in-window address selects one of the five words, and lies at that word's offset. -/
theorem inWindow_wordIndex {base addr : Word} (h : inWindow base addr = true) :
    wordIndex base addr < 5 ∧ addr.toNat = base.toNat + 4 * wordIndex base addr := by
  obtain ⟨h1, h2, h3⟩ := (inWindow_iff _ _).mp h
  simp only [wordIndex, Config.wordBytes]
  omega

/-- What a load can do. -/
theorem loadWord_cases (s : State) (rd : RegIdx) (addr : Word) :
    (inWindow s.config.memBase addr = true ∧
      loadWord s rd addr = wrreg s rd (Memory.read s.mem (wordIndex s.config.memBase addr))) ∨
    (inWindow s.config.memBase addr = false ∧ loadWord s rd addr = s) := by
  cases h : inWindow s.config.memBase addr <;> simp [loadWord, memRead, h]

/-- What a store can do. -/
theorem storeWord_cases (s : State) (rd : RegIdx) (addr : Word) :
    (inWindow s.config.memBase addr = true ∧ storeWord s rd addr = memWrite s addr (rdreg s rd)) ∨
    (inWindow s.config.memBase addr = false ∧ storeWord s rd addr = s) := by
  cases h : inWindow s.config.memBase addr <;> simp [storeWord, h]

/-! ### The gate -/

theorem gate_holds {c : Cond} {s : State} (op : State → State) (h : condHolds c s.flags = true) :
    gate c s op = .next (op s) := by simp [gate, h]

theorem gate_fails {c : Cond} {s : State} (op : State → State) (h : condHolds c s.flags = false) :
    gate c s op = .next (advance s) := by simp [gate, h]

/-- What a gated operation can answer. -/
theorem gate_next {c : Cond} {s t : State} {op : State → State} (h : gate c s op = .next t) :
    (condHolds c s.flags = true ∧ t = op s) ∨ (condHolds c s.flags = false ∧ t = advance s) := by
  cases hc : condHolds c s.flags <;> simp [gate, hc] at h <;> simp [h]

end Sys2Proof.Machine
end

