-- ==== Sys2Proof/Laws/PerInstr.lean ====
section
/-! SUPPORT. Laws stated of every instruction, one lemma per constructor of `Instr`. -/

namespace Sys2Proof.Laws.MnemonicToken

open Sys2Proof

/-- The mnemonic an instruction is written with decodes, under the default table, to the instruction's kind,
condition and marker (R68, R86). A label-only line has no mnemonic. -/
def Statement (i : Instr) : Prop :=
  i.kind ≠ .invalid →
    decodeMnemonic defaultMnemonicTable (mnemonicToken (baseName defaultMnemonicTable i.kind) i.cond i.marked) =
      { kind := i.kind, cond := i.cond, sflag := i.marked }

/-- The statement over kinds, conditions and markers: the 196 tokens of R86. -/
theorem token_decodes (k : Kind) (h : k ≠ .invalid) (c : Cond) (f : Bool) :
    decodeMnemonic defaultMnemonicTable (mnemonicToken (baseName defaultMnemonicTable k) c f) =
      { kind := k, cond := c, sflag := f } := by
  cases k
  case invalid => exact absurd rfl h
  all_goals (clear h; cases c <;> cases f <;> decide)

theorem nop (c : Cond) (f : Bool) : Statement (.nop c f) :=
  fun h => token_decodes _ h _ _

theorem invalid (hl : Bool) (c : Cond) : Statement (.invalid hl c) := fun h => absurd rfl h

theorem add (c : Cond) (f : Bool) (rd rn : RegIdx) (op2 : Op2) : Statement (.add c f rd rn op2) :=
  fun h => token_decodes _ h _ _

theorem sub (c : Cond) (f : Bool) (rd rn : RegIdx) (op2 : Op2) : Statement (.sub c f rd rn op2) :=
  fun h => token_decodes _ h _ _

theorem and (c : Cond) (f : Bool) (rd rn : RegIdx) (op2 : Op2) : Statement (.and c f rd rn op2) :=
  fun h => token_decodes _ h _ _

theorem orr (c : Cond) (f : Bool) (rd rn : RegIdx) (op2 : Op2) : Statement (.orr c f rd rn op2) :=
  fun h => token_decodes _ h _ _

theorem eor (c : Cond) (f : Bool) (rd rn : RegIdx) (op2 : Op2) : Statement (.eor c f rd rn op2) :=
  fun h => token_decodes _ h _ _

theorem mvn (c : Cond) (f : Bool) (rd : RegIdx) (op2 : Op2) : Statement (.mvn c f rd op2) :=
  fun h => token_decodes _ h _ _

theorem lsl (c : Cond) (f : Bool) (rd rn : RegIdx) (op2 : Op2) : Statement (.lsl c f rd rn op2) :=
  fun h => token_decodes _ h _ _

theorem lsr (c : Cond) (f : Bool) (rd rn : RegIdx) (op2 : Op2) : Statement (.lsr c f rd rn op2) :=
  fun h => token_decodes _ h _ _

theorem mov (c : Cond) (f : Bool) (rd : RegIdx) (op2 : Op2) : Statement (.mov c f rd op2) :=
  fun h => token_decodes _ h _ _

theorem ldr (c : Cond) (f : Bool) (rd rn : RegIdx) : Statement (.ldr c f rd rn) :=
  fun h => token_decodes _ h _ _

theorem str (c : Cond) (f : Bool) (rd rn : RegIdx) : Statement (.str c f rd rn) :=
  fun h => token_decodes _ h _ _

theorem cmp (c : Cond) (rn : RegIdx) (op2 : Op2) : Statement (.cmp c rn op2) :=
  fun h => token_decodes _ h _ _

theorem b (c : Cond) (f : Bool) (label : Option Text) (target : Option Nat) : Statement (.b c f label target) :=
  fun h => token_decodes _ h _ _

theorem beq (f : Bool) (label : Option Text) (target : Option Nat) : Statement (.beq f label target) :=
  fun h => token_decodes _ h _ _

end Sys2Proof.Laws.MnemonicToken
end

