-- ==== Sys2Proof/Laws/Step.lean ====
section
/-! SUPPORT. What one operation and one step can do: the inversion lemmas of `exec` and of the phases. -/

namespace Sys2Proof.Machine

open Sys2Proof Host

/-! ### Every operation as a gated operation -/

section
variable (c : Cond) (f : Bool) (rd rn : RegIdx) (op2 : Op2) (l : Option Text) (target : Option Nat) (s : State)

theorem exec_nop : exec (.nop c f) s = gate c s advance := rfl

theorem exec_invalid_labelled : exec (.invalid true c) s = .next (advance s) := rfl

theorem exec_invalid_unlabelled : exec (.invalid false c) s = gate c s advance := rfl

theorem exec_add : exec (.add c f rd rn op2) s =
    gate c s fun s => finish s rd (firstVal s rn + op2val s op2) f
      (addFlags (firstVal s rn) (op2val s op2) (firstVal s rn + op2val s op2)) := rfl

theorem exec_sub : exec (.sub c f rd rn op2) s =
    gate c s fun s => finish s rd (firstVal s rn - op2val s op2) f
      (subFlags (firstVal s rn) (op2val s op2) (firstVal s rn - op2val s op2)) := rfl

theorem exec_and : exec (.and c f rd rn op2) s =
    gate c s fun s => finish s rd (firstVal s rn &&& op2val s op2) f
      (logicFlags s.flags (firstVal s rn &&& op2val s op2)) := rfl

theorem exec_orr : exec (.orr c f rd rn op2) s =
    gate c s fun s => finish s rd (firstVal s rn ||| op2val s op2) f
      (logicFlags s.flags (firstVal s rn ||| op2val s op2)) := rfl

theorem exec_eor : exec (.eor c f rd rn op2) s =
    gate c s fun s => finish s rd (firstVal s rn ^^^ op2val s op2) f
      (logicFlags s.flags (firstVal s rn ^^^ op2val s op2)) := rfl

theorem exec_lsl : exec (.lsl c f rd rn op2) s =
    gate c s fun s => finish s rd (lslResult (firstVal s rn) (op2val s op2)) f
      (shiftFlags s.flags true (firstVal s rn) (op2val s op2)
        (lslResult (firstVal s rn) (op2val s op2))) := rfl

theorem exec_lsr : exec (.lsr c f rd rn op2) s =
    gate c s fun s => finish s rd (lsrResult (firstVal s rn) (op2val s op2)) f
      (shiftFlags s.flags false (firstVal s rn) (op2val s op2)
        (lsrResult (firstVal s rn) (op2val s op2))) := rfl

theorem exec_cmp : exec (.cmp c rn op2) s =
    gate c s fun s => finish s none (firstVal s rn - op2val s op2) true
      (subFlags (firstVal s rn) (op2val s op2) (firstVal s rn - op2val s op2)) := rfl

theorem exec_mov : exec (.mov c f rd op2) s =
    gate c s fun s => finish s rd (op2val s op2) f (logicFlags s.flags (op2val s op2)) := rfl

theorem exec_mvn : exec (.mvn c f rd op2) s =
    gate c s fun s => finish s rd (~~~(op2val s op2)) f (logicFlags s.flags (~~~(op2val s op2))) := rfl

theorem exec_ldr : exec (.ldr c f rd rn) s =
    gate c s fun s => advance (loadWord s rd (effAddr s rn)) := rfl

theorem exec_str : exec (.str c f rd rn) s =
    gate c s fun s => advance (storeWord s rd (effAddr s rn)) := rfl

theorem exec_b : exec (.b c f l target) s = gate c s fun s => setPc s (branchNext target s) := rfl

theorem exec_beq : exec (.beq f l target) s = gate .eq s fun s => setPc s (branchNext target s) := rfl

end

/-- Everything an operation can do: it is skipped, ends with a result written back, loads, stores, or sets `pc`. -/
theorem exec_cases {i : Instr} {s t : State} (h : exec i s = .next t) :
    t = advance s ∨
    (∃ rd r f fl, t = finish s rd r f fl) ∨
    (∃ rd addr, t = advance (loadWord s rd addr)) ∨
    (∃ rd addr, t = advance (storeWord s rd addr)) ∨
    (∃ target, t = setPc s (branchNext target s)) := by
  cases i with
  | nop c f => rw [exec_nop] at h; rcases gate_next h with ⟨-, h⟩ | ⟨-, h⟩ <;> exact .inl h
  | invalid hl c =>
    cases hl
    · rw [exec_invalid_unlabelled] at h; rcases gate_next h with ⟨-, h⟩ | ⟨-, h⟩ <;> exact .inl h
    · rw [exec_invalid_labelled] at h; cases h; exact .inl rfl
  | ldr c f rd rn =>
    rw [exec_ldr] at h
    rcases gate_next h with ⟨-, h⟩ | ⟨-, h⟩
    · exact .inr (.inr (.inl ⟨_, _, h⟩))
    · exact .inl h
  | str c f rd rn =>
    rw [exec_str] at h
    rcases gate_next h with ⟨-, h⟩ | ⟨-, h⟩
    · exact .inr (.inr (.inr (.inl ⟨_, _, h⟩)))
    · exact .inl h
  | b c f l target =>
    rw [exec_b] at h
    rcases gate_next h with ⟨-, h⟩ | ⟨-, h⟩
    · exact .inr (.inr (.inr (.inr ⟨_, h⟩)))
    · exact .inl h
  | beq f l target =>
    rw [exec_beq] at h
    rcases gate_next h with ⟨-, h⟩ | ⟨-, h⟩
    · exact .inr (.inr (.inr (.inr ⟨_, h⟩)))
    · exact .inl h
  | _ =>
    simp only [exec_add, exec_sub, exec_and, exec_orr, exec_eor, exec_mvn, exec_lsl, exec_lsr, exec_mov,
      exec_cmp] at h
    rcases gate_next h with ⟨-, h⟩ | ⟨-, h⟩
    · exact .inr (.inl ⟨_, _, _, _, h⟩)
    · exact .inl h

/-- An operation writes registers, flags, memory and `pc` only. -/
theorem exec_keeps {i : Instr} {s t : State} (h : exec i s = .next t) :
    t.config = s.config ∧ t.phase = s.phase ∧ t.input = s.input ∧ t.prog = s.prog ∧ t.emitted = s.emitted := by
  rcases exec_cases h with rfl | ⟨_, _, _, _, rfl⟩ | ⟨rd, addr, rfl⟩ | ⟨rd, addr, rfl⟩ | ⟨_, rfl⟩
  · simp
  · simp
  · rcases loadWord_cases s rd addr with ⟨-, h⟩ | ⟨-, h⟩ <;> simp [h]
  · rcases storeWord_cases s rd addr with ⟨-, h⟩ | ⟨-, h⟩ <;> simp [h]
  · simp

/-- What a LOAD step can answer. -/
theorem loadStep_next {s t : State} (h : loadStep s = .next t) :
    (s.input = [] ∧ t = { s with phase := .resolve }) ∨
    (∃ line rest, s.input = line :: rest ∧ lineProblem line = none ∧
      t = { s with input := rest, prog := s.prog ++ [decodeLine s.config line] }) := by
  unfold loadStep at h
  split at h
  · next hi => cases h; exact .inl ⟨hi, rfl⟩
  · next line rest hi =>
    unfold decode at h
    cases hp : lineProblem line with
    | some p => simp [hp] at h
    | none => simp only [hp] at h; cases h; exact .inr ⟨line, rest, hi, hp, rfl⟩

/-- What a RUN step can answer. -/
theorem runStep_next {s t : State} (h : runStep s = .next t) :
    (s.prog[s.pc]? = none ∧ t = { s with phase := .halt }) ∨
    (∃ r u, s.prog[s.pc]? = some r ∧ exec r.instr s = .next u ∧ t = emitSnapshot r.raw u) := by
  unfold runStep fetch at h
  split at h
  · next hf => cases h; exact .inl ⟨hf, rfl⟩
  · next r hf =>
    split at h
    · next u hu => cases h; exact .inr ⟨r, u, hf, hu, rfl⟩
    · cases h
    · cases h

/-- What any step can answer. -/
theorem step_cases {s t : State} (h : step s = .next t) :
    (s.phase = .load ∧ s.input = [] ∧ t = { s with phase := .resolve }) ∨
    (s.phase = .load ∧ ∃ line rest, s.input = line :: rest ∧ lineProblem line = none ∧
      t = { s with input := rest, prog := s.prog ++ [decodeLine s.config line] }) ∨
    (s.phase = .resolve ∧ t = { s with prog := resolve s.config s.prog, phase := .run }) ∨
    (s.phase = .run ∧ s.prog[s.pc]? = none ∧ t = { s with phase := .halt }) ∨
    (s.phase = .run ∧ ∃ r u, s.prog[s.pc]? = some r ∧ exec r.instr s = .next u ∧ t = emitSnapshot r.raw u) ∨
    (s.phase = .halt ∧ t = s) := by
  unfold step at h
  split at h
  · next hp =>
    rcases loadStep_next h with ⟨h1, h2⟩ | h
    · exact .inl ⟨hp, h1, h2⟩
    · exact .inr (.inl ⟨hp, h⟩)
  · next hp => cases h; exact .inr (.inr (.inl ⟨hp, rfl⟩))
  · next hp =>
    rcases runStep_next h with ⟨h1, h2⟩ | h
    · exact .inr (.inr (.inr (.inl ⟨hp, h1, h2⟩)))
    · exact .inr (.inr (.inr (.inr (.inl ⟨hp, h⟩))))
  · next hp => cases h; exact .inr (.inr (.inr (.inr (.inr ⟨hp, rfl⟩))))

/-! ### Runs -/

/-- A run goes on from the state its first step answers. -/
theorem core_run_next {s t : State} (h : step s = .next t) (k : Nat) :
    Host.Core.run Sys2Proof.core (k + 1) s = Host.Core.run Sys2Proof.core k t := by
  have h' : Sys2Proof.core.step s = .next t := h
  rw [Host.Core.run.eq_2 Sys2Proof.core s k]
  split <;> rename_i hs <;> rw [h'] at hs <;> cases hs
  rfl

/-- A run of at least one step that does not stop has a first step that does not. -/
theorem core_run_inv {s t : State} {k : Nat} (h : Host.Core.run Sys2Proof.core (k + 1) s = .next t) :
    ∃ u, step s = .next u ∧ Host.Core.run Sys2Proof.core k u = .next t := by
  rw [Host.Core.run.eq_2 Sys2Proof.core s k] at h
  split at h
  · next u hu => exact ⟨u, hu, h⟩
  · cases h
  · cases h

end Sys2Proof.Machine
end

