-- ==== Sys2Proof/Tests/Slice0.lean ====
section
/-! SUPPORT. Tests: decoding of written lines, the well-formedness smoke, one step of each instruction, and a witness
for every statement that has hypotheses. Expected values are those of 95_test_vectors.md unless a comment says
otherwise. -/

namespace Sys2Proof.Tests

open Sys2Proof Sys2Proof.Machine Host

/-! ### Helpers -/

/-- A configuration with the placeholder base address of R54. -/
def cfg : Config :=
  { memBase := 0x100#32, mnemonicTable := defaultMnemonicTable, labelFields := .shared }

/-- The same with the other setting of `LABEL_FIELDS`. -/
def cfgSep : Config := { cfg with labelFields := .separate }

/-- Flags from `NZCV`, written as four numerals (R23). -/
def nzcv (n z c v : Nat) : Flags := { n := n == 1, z := z == 1, c := c == 1, v := v == 1 }

/-- A RUN state with the registers 0, 1 and 2 and the flags given. -/
def st (r0 r1 r2 : Word) (fl : Flags) : State :=
  { State.resetWith cfg with phase := .run, regs := #v[r0, r1, r2, 0, 0, 0, 0, 0, 0, 0, 0, 0x11#32], flags := fl }

/-- A record as the decoder gives it. -/
def recOf (line : String) : InstrRecord := decodeLine cfg (ascii line)

/-- The instruction of a line. -/
def ins (line : String) : Instr := (recOf line).instr

/-- A RUN state at index `pc` of the resolved program of some lines. -/
def at' (lines : List String) (pc : Nat) (s : State) : State :=
  { s with prog := resolve cfg (lines.map recOf), pc := pc }

/-- The state after an outcome; the state before it where there is none. -/
def got (s : State) (o : Outcome State Fault Refusal) : State :=
  match o with
  | .next t => t
  | _ => s

/-- The state after one line, executed. -/
def after (line : String) (s : State) : State := got s (exec (ins line) s)

/-- What a data-processing line gives: the register 0 and the flags. -/
def res (line : String) (s : State) : Word × Flags := ((after line s).regs[0], (after line s).flags)

/-! ### Decoding is right: lines of 95_test_vectors.md 2.2 -/

theorem test_decode_mov : ins "MOV R0, #5" = .mov .al false (some 0) (.imm 5) := by decide
theorem test_decode_add : ins "LOOP:   ADD   R1,R0 ,  R2" = .add .al false (some 1) (some 0) (.reg 2) := by decide
theorem test_decode_add_label : (recOf "LOOP:   ADD   R1,R0 ,  R2").label = some (ascii "LOOP") := by decide
theorem test_decode_sub : ins "SUBS R2, R0, #5" = .sub .al true (some 2) (some 0) (.imm 5) := by decide
theorem test_decode_cmp : ins "CMP R0, #5" = .cmp .al (some 0) (.imm 5) := by decide
theorem test_decode_lsl : ins "LSLS R0, R1, #33" = .lsl .al true (some 0) (some 1) (.imm 33) := by decide
theorem test_decode_ldr : ins "LDR R5, [R2]" = .ldr .al false (some 5) (some 2) := by decide
theorem test_decode_ldr_offset : ins "LDR R0, [R1, #4]" = .ldr .al false (some 0) none := by decide
theorem test_decode_str : ins "STR R1, [R0]" = .str .al false (some 1) (some 0) := by decide
theorem test_decode_mvn : ins "MVNEQ R3, R2" = .mvn .eq false (some 3) (.reg 2) := by decide
theorem test_decode_nop : ins "END: NOP" = .nop .al false := by decide
theorem test_decode_beq : ins "BEQ LOOP" = .beq false (some (ascii "LOOP")) none := by decide
theorem test_decode_b : ins "B LOOP" = .b .al false (some (ascii "LOOP")) none := by decide
theorem test_decode_invalid : recOf "X: Y: ADD R0, R0, #1" =
    { InstrRecord.blank (ascii "X: Y: ADD R0, R0, #1") with hasLabel := true, label := some (ascii "X") } := by decide
theorem test_decode_short_form : ins "ADD R0, #1" = .add .al false (some 0) none .unset := by decide
theorem test_decode_out_of_range : ins "ADD R12, R13, R14" = .add .al false (some 12) (some 13) (.reg 14) := by decide
theorem test_decode_number_wraps : ins "MOV R0, #4294967296" = .mov .al false (some 0) (.imm 0) := by decide
theorem test_decode_hex : ins "AND r1, r0, 0x1F" = .and .al false (some 1) (some 0) (.imm 31) := by decide
-- The remaining spellings of R67, the line written out by the format F3 of R84.
theorem test_decode_orr : ins "ORRGT R1, R0, [R3]" = .orr .gt false (some 1) (some 0) (.reg 3) := by decide
theorem test_decode_eor : ins "EORS R1, R0, #010" = .eor .al true (some 1) (some 0) (.imm 10) := by decide
theorem test_decode_lsr : ins "LSRLES R1, R0, 5" = .lsr .le true (some 1) (some 0) (.imm 5) := by decide
theorem test_marker_before_suffix : (decodeMnemonic defaultMnemonicTable (ascii "ADDSEQ")).kind = .invalid := by decide
theorem test_tokenize_middle : tokenize (ascii "R0,,R1") = [ascii "R0", [], ascii "R1"] := by decide
theorem test_register_forms : ["R03", "[r4]", "R1x", "[[R1]]", "[ R1 ]", "R"].map (fun t => parseReg (some (ascii t))) =
    [some 3, some 4, none, none, none, none] := by decide
theorem test_operand_forms : ["#0x1f", "#0X1F", "#", "-1", "5abc", "R12"].map (fun t => parseOp2 (some (ascii t))) =
    [.imm 31, .unset, .unset, .unset, .unset, .reg 12] := by decide

-- A labelled branch under the two settings of `LABEL_FIELDS` (R93).
theorem test_labelled_branch_shared : (declLabel (recOf "LOOP: BEQ END"), targetLabel .shared (recOf "LOOP: BEQ END")) =
    (some (ascii "END"), some (ascii "END")) := by decide
theorem test_labelled_branch_separate :
    (declLabel (decodeLine cfgSep (ascii "LOOP: BEQ END")), targetLabel .separate (decodeLine cfgSep (ascii "LOOP: BEQ END"))) =
      (some (ascii "LOOP"), some (ascii "END")) := by decide

-- A labelled branch without an operand never resolves, under either setting (R80, R192, D29).
theorem test_bare_branch_unresolved :
    ((resolve cfg [recOf "LOOP: BEQ"]).map InstrRecord.target,
      (resolve cfgSep [decodeLine cfgSep (ascii "LOOP: BEQ")]).map InstrRecord.target) = ([none], [none]) := by decide

/-! ### The coded record: words of the opcode table (R28's codes; log 4 for the places above bit 3) -/

theorem test_word_nop : decodeTableWord 8 0b00000000 = some (.nop .al false) := by decide
theorem test_word_ldr : decodeTableWord 8 0b00001011 = some (.ldr .al false none none) := by decide
theorem test_word_mov_marked_le : decodeTableWord 8 0b11101010 = some (.mov .le true none .unset) := by decide
theorem test_word_b_and_beq : (decodeTableWord 8 0b00001110, decodeTableWord 8 0b00011110) =
    (some (.b .al false none none), some (.beq false none none)) := by decide
theorem test_word_unused_kind : decodeTableWord 8 0b00001111 = none := by decide
theorem test_word_unused_cond : decodeTableWord 8 0b01110000 = none := by decide

/-! ### The encoder -/

theorem test_encode_labelled : encode (some (ascii "LOOP")) (.sub .ge true (some 2) (some 0) (.imm 5)) =
    ascii "LOOP: SUBGES R2,R0,#5" := by decide
theorem test_encode_load : encode none (.ldr .al false (some 5) (some 11)) = ascii "LDR R5,[R11]" := by decide

/-! ### The well-formedness smoke: an ill-formed term for each check -/

theorem test_wf_invalid_without_label : (Instr.invalid false .al).wellFormed = false := by decide
theorem test_wf_invalid_condition : (Instr.invalid true .eq).wellFormed = false := by decide
theorem test_wf_branch_eq : (Instr.b .eq false none none).wellFormed = false := by decide
theorem test_wf_label_comma : (Instr.beq false (some (ascii "A,B")) none).wellFormed = false := by decide
theorem test_wf_label_edge : (Instr.b .al false (some (ascii "A ")) none).wellFormed = false := by decide
theorem test_wf_label_line_end : (Instr.beq false (some [0x0A#8]) none).wellFormed = false := by decide
theorem test_wf_line_invalid_unlabelled : lineWellFormed none (.invalid true .al) = false := by decide
theorem test_wf_line_label_space : lineWellFormed (some (ascii "A B")) (.nop .al false) = false := by decide
theorem test_wf_line_label_line_end : lineWellFormed (some [0x0D#8]) (.nop .al false) = false := by decide
theorem test_wf_accepts : lineWellFormed (some (ascii "L")) (.beq true (some (ascii "A B")) none) = true := by decide
theorem test_wf_table_marker : ¬ tableOk [(ascii "ADDS", .add)] := by unfold tableOk; decide
theorem test_wf_table_suffix : ¬ tableOk [(ascii "MOVGE", .mov)] := by unfold tableOk; decide
theorem test_wf_table_invalid : ¬ tableOk [(ascii "FOO", .invalid)] := by unfold tableOk; decide
theorem test_wf_table_twice : ¬ tableOk [(ascii "ADD", .add), (ascii "ADD", .sub)] := by unfold tableOk; decide
theorem test_contract : ["", " NOP", "NOP\t", "A\nB", "NOP"].map (fun t => lineProblem (ascii t)) =
    [some .emptyLine, some .leadingWhitespace, some .trailingWhitespace, some .lineEndCharacter, none] := by decide
-- The clauses of R94: admitted lines, then one line outside each clause that a form of the line can break.
theorem test_admitted : ["LOOP: ADDEQS R1, r0, #0x1F", "BEQ LOOP", "LDR R5, [R11]", "NOP", "X:"].map
    (fun t => admittedLine defaultMnemonicTable (ascii t)) = [true, true, true, true, true] := by decide
theorem test_not_admitted : ["MOV  R0, #5", "LOOP", "B LOOP", "ADD R0, R1", "MOV R12, #5", "LDR R5, R2", "MOV R0, #010",
    "L: BEQ X", "NOP R1"].map (fun t => admittedLine defaultMnemonicTable (ascii t)) =
      [false, false, false, false, false, false, false, false, false] := by decide

/-! ### One step of each instruction: vectors of 95_test_vectors.md 2.5 to 2.10 -/

theorem test_add_overflows : res "ADDS R0, R1, R2" (st 0 0x7FFFFFFF 1 (nzcv 0 0 1 0)) = (0x80000000, nzcv 1 0 0 1) := by
  decide
theorem test_add_no_marker : res "ADD R0, R0, R0" (st 0x80000001 0 0 (nzcv 1 0 1 1)) = (2, nzcv 1 0 1 1) := by decide
theorem test_sub_borrows : res "SUBS R0, R1, #5" (st 9 0 0 (nzcv 0 1 1 1)) = (0xFFFFFFFB, nzcv 1 0 0 0) := by decide
theorem test_sub_overflows : res "SUBS R0, R1, R2" (st 9 0x80000000 1 (nzcv 0 0 0 0)) = (0x7FFFFFFF, nzcv 0 0 1 1) := by
  decide
theorem test_cmp_equal : res "CMP R0, #5" (st 5 0 0 (nzcv 1 0 0 1)) = (5, nzcv 0 1 1 0) := by decide
theorem test_cmp_skipped : after "CMPNE R0, #0" (st 0 0 0 (nzcv 1 1 0 1)) = { st 0 0 0 (nzcv 1 1 0 1) with pc := 1 } := by
  decide
theorem test_and_keeps_cv : res "ANDS R0, R1, R2" (st 7 0xF0F0F0F0 0x0FF00FF0 (nzcv 1 1 1 1)) =
    (0x00F000F0, nzcv 0 0 1 1) := by decide
theorem test_orr : res "ORRS R0, R1, #1" (st 0 0x80000000 0 (nzcv 0 1 0 0)) = (0x80000001, nzcv 1 0 0 0) := by decide
theorem test_eor : res "EORS R0, R1, R2" (st 9 0x12345678 0x12345678 (nzcv 1 0 0 1)) = (0, nzcv 0 1 0 1) := by decide
theorem test_lsl_carry : res "LSLS R0, R1, #31" (st 0 3 0 (nzcv 0 0 0 0)) = (0x80000000, nzcv 1 0 1 0) := by decide
theorem test_lsl_33 : res "LSLS R0, R1, #33" (st 1 0xFFFFFFFF 0 (nzcv 1 0 1 1)) = (0, nzcv 0 1 1 1) := by decide
theorem test_lsr_carry : res "LSRS R0, R1, #31" (st 0 0xC0000000 0 (nzcv 1 1 0 0)) = (1, nzcv 0 0 1 0) := by decide
theorem test_lsr_register_amount : res "LSRS R0, R1, R2" (st 1 0xFFFFFFFF 0x100 (nzcv 0 0 0 0)) = (0, nzcv 0 1 0 0) := by
  decide
theorem test_mov_marked : res "MOVS R0, #0xFFFFFFFF" (st 0 0 0 (nzcv 0 1 1 1)) = (0xFFFFFFFF, nzcv 1 0 1 1) := by decide
theorem test_mov_absent : res "MOV R0, #-1" (st 7 0 0 (nzcv 0 0 0 0)) = (0, nzcv 0 0 0 0) := by decide
theorem test_mvn : res "MVNS R0, #0xFFFFFFFF" (st 7 0 0 (nzcv 1 0 1 0)) = (0, nzcv 0 1 1 0) := by decide
theorem test_ldr_last_word : (after "LDR R1, [R1]" { st 0 0x110 0 (nzcv 0 0 0 0) with mem := [(4, 0xAB)] }).regs[1] =
    0xAB := by decide
theorem test_ldr_misaligned : after "LDRS R1, [R1]" { st 0 0x102 0 (nzcv 0 1 0 0) with mem := [(0, 0xAB)] } =
    { st 0 0x102 0 (nzcv 0 1 0 0) with mem := [(0, 0xAB)], pc := 1 } := by decide
theorem test_str_in_order : (after "STR R1, [R0]" { st 0x108 0xAB 0 (nzcv 0 0 0 0) with mem := [(0, 1), (4, 5)] }).mem =
    [(0, 1), (2, 0xAB), (4, 5)] := by decide
theorem test_b_not_unconditional :
    ((step (at' ["L:", "B L"] 1 (st 0 0 0 (nzcv 0 0 0 0)))) |> got (st 0 0 0 (nzcv 0 0 0 0))).pc = 2 := by decide
theorem test_beq_taken :
    ((step (at' ["L:", "BEQ L"] 1 (st 0 0 0 (nzcv 0 1 0 0)))) |> got (st 0 0 0 (nzcv 0 0 0 0))).pc = 0 := by decide
theorem test_nop : after "NOPEQ" (st 1 2 3 (nzcv 0 1 1 0)) = { st 1 2 3 (nzcv 0 1 1 0) with pc := 1 } := by decide
-- R206: a record of kind `INVALID` that declares no label.
theorem test_invalid_unlabelled :
    got (st 1 2 3 (nzcv 0 0 0 0)) (exec (.invalid false .al) (st 1 2 3 (nzcv 0 0 0 0))) =
      { st 1 2 3 (nzcv 0 0 0 0) with pc := 1 } := by decide
-- Writing the value of an unlisted word removes the cell; a destination of 12 drops the write and
-- keeps the flag update (R22, R133).
theorem test_str_zero : (after "STR R12, [R0]" { st 0x100 1 0 (nzcv 0 0 0 0) with mem := [(0, 7)] }).mem = [] := by decide
theorem test_orr_dropped_write : after "ORRS R12, R0, #1" (st 0x80000000 1 2 (nzcv 0 1 1 0)) =
    { st 0x80000000 1 2 (nzcv 1 0 1 0) with pc := 1 } := by decide
-- R25, R130: the snapshot carries the line's text and the values after the step's writes.
theorem test_snapshot :
    ((step (at' ["MOV R0, #5"] 0 (st 0 0 0 (nzcv 0 0 0 0)))) |> got (st 0 0 0 (nzcv 0 0 0 0))).emitted.map
      (fun x => (x.raw, x.regs[0])) = [(ascii "MOV R0, #5", 5)] := by decide
-- R191 and program P4 of 95_test_vectors.md part 3: the lowest index wins.
theorem test_resolver_first_match :
    ((resolve cfg (["BEQ D", "D:", "D:", "BEQ X"].map recOf)).map InstrRecord.target) = [some 1, none, none, none] := by
  decide

/-! ### Witnesses: a concrete case that meets the hypotheses of each statement -/

/-- A RUN state that the witnesses share: word 2 of the memory listed, `Z` set. -/
def w : State := { st 0x108 5 0xAB (nzcv 0 1 0 0) with mem := [(2, 0xCD)] }

/-- A program whose records the witnesses share, resolved. -/
def wp (pc : Nat) : State := at' ["L:", "ADDNE R0, R1, R2", "BEQ L"] pc w

theorem test_witness_RegisterReadByIndex : rdreg w (some 11) = w.regs[11] ∧ 12 ≤ 12 ∧ rdreg w (some 12) = 0 := by decide

theorem test_witness_RegisterWriteByIndex :
    (wrreg w (some 11) 7).regs[11] = 7 ∧ (wrreg w (some 11) 7).regs[10] = w.regs[10] ∧ wrreg w (some 12) 7 = w := by decide

theorem test_witness_OperandTwoValue : op2val w (.reg 11) = w.regs[11] ∧ op2val w (.reg 12) = 0 := by decide

theorem test_witness_ConditionsAfterCompare :
    rdreg w (some 1) = 5 ∧ op2val w (.imm 6) = 6 ∧
    exec (.cmp .al (some 1) (.imm 6)) w = .next (got w (exec (.cmp .al (some 1) (.imm 6)) w)) ∧
    condHolds .lt (got w (exec (.cmp .al (some 1) (.imm 6)) w)).flags = true := ⟨by decide, by decide, rfl, by decide⟩

theorem test_witness_FailedConditionSkips_exec :
    (∀ c, ins "ADDNE R0, R1, R2" ≠ .invalid true c) ∧ condHolds (ins "ADDNE R0, R1, R2").cond w.flags = false :=
  ⟨fun _ => by rw [show ins "ADDNE R0, R1, R2" = .add .ne false (some 0) (some 1) (.reg 2) by decide]; simp, by decide⟩

theorem test_witness_FailedConditionSkips_step :
    (wp 1).phase = .run ∧ (wp 1).prog[(wp 1).pc]? = some (recOf "ADDNE R0, R1, R2") ∧
    ¬ ((recOf "ADDNE R0, R1, R2").kind = .invalid ∧ (recOf "ADDNE R0, R1, R2").hasLabel = true) ∧
    condHolds (recOf "ADDNE R0, R1, R2").cond (wp 1).flags = false := by decide

theorem test_witness_StepRunsFetchedInstruction :
    (wp 1).phase = .run ∧ (wp 1).prog[(wp 1).pc]? = some (recOf "ADDNE R0, R1, R2") ∧
    exec (recOf "ADDNE R0, R1, R2").instr (wp 1) = .next (got w (exec (recOf "ADDNE R0, R1, R2").instr (wp 1))) :=
  ⟨by decide, by decide, rfl⟩

theorem test_witness_LabelOnlyStep :
    (wp 0).phase = .run ∧ (wp 0).prog[(wp 0).pc]? = some (recOf "L:") ∧ (recOf "L:").kind = .invalid ∧
    (recOf "L:").hasLabel = true := by decide

theorem test_witness_RunEndsPastProgram :
    (wp 3).phase = .run ∧ (wp 3).prog.length ≤ (wp 3).pc ∧ { w with phase := Phase.halt }.phase = .halt := by decide

theorem test_witness_OneSnapshotPerStep :
    step (wp 2) = .next (got w (step (wp 2))) ∧ (wp 2).phase = .run ∧ (wp 2).prog[(wp 2).pc]?.isSome = true ∧
    (got w (step (wp 2))).pc = 0 := ⟨rfl, by decide, by decide, by decide⟩

theorem test_witness_OneSnapshotPerStep_otherwise :
    step (wp 3) = .next (got w (step (wp 3))) ∧ (wp 3).prog.length ≤ (wp 3).pc := ⟨rfl, by decide⟩

theorem test_witness_SnapshotCountIsStepCount :
    (wp 0).phase = .run ∧ Host.Core.run Sys2Proof.core 3 (wp 0) = .next (got w (Host.Core.run Sys2Proof.core 3 (wp 0))) ∧
    (got w (Host.Core.run Sys2Proof.core 3 (wp 0))).phase = .run ∧
    (got w (Host.Core.run Sys2Proof.core 3 (wp 0))).emitted.length = 3 := ⟨by decide, rfl, by decide, by decide⟩

-- For AddExecutes, SubExecutes, CmpExecutes, BitwiseExecutes, LslExecutes, LsrExecutes and MovesExecute.
theorem test_witness_ResultStatements : condHolds .eq w.flags = true ∧ condHolds .al w.flags = true := by decide

-- For LdrExecutes and StrExecutes: the first and the last word of the window, then the nearest addresses outside it.
theorem test_witness_LdrStrExecutes_in_window :
    w.config.baseOk ∧ Memory.wf w.mem ∧ condHolds .al w.flags = true ∧
    (rdreg { w with regs := w.regs.set 0 0x100 } (some 0)).toNat = w.config.memBase.toNat + 4 * 0 ∧
    (rdreg { w with regs := w.regs.set 0 0x110 } (some 0)).toNat = w.config.memBase.toNat + 4 * 4 := by
  unfold Config.baseOk; decide

theorem test_witness_LdrStrExecutes_elsewhere :
    (∀ k, k < 5 → (rdreg { w with regs := w.regs.set 0 0x114 } (some 0)).toNat ≠ w.config.memBase.toNat + 4 * k) ∧
    (∀ k, k < 5 → (rdreg { w with regs := w.regs.set 0 0xFC } (some 0)).toNat ≠ w.config.memBase.toNat + 4 * k) ∧
    (∀ k, k < 5 → (rdreg { w with regs := w.regs.set 0 0x102 } (some 0)).toNat ≠ w.config.memBase.toNat + 4 * k) := by
  decide

theorem test_witness_BeqTakenIffZeroAndTarget :
    0 < (wp 2).prog.length ∧ 2 < (wp 2).prog.length ∧ (wp 2).flags.z = true ∧ (st 0 0 0 (nzcv 0 0 0 0)).flags.z = false ∧
    (∀ k, some 3 = some k → (wp 2).prog.length ≤ k) := by
  refine ⟨by decide, by decide, by decide, by decide, ?_⟩
  rintro k ⟨⟩; decide

theorem test_witness_DataProcessingFrame :
    exec (ins "ADDS R0, R1, R2") w = .next (after "ADDS R0, R1, R2" w) ∧
    exec (ins "LSLS R0, R1, R2") w = .next (after "LSLS R0, R1, R2" w) ∧
    exec (ins "EOR R0, R1, R2") w = .next (after "EOR R0, R1, R2" w) ∧
    (some 0 : RegIdx) ≠ some 1 ∧ (after "ADDS R0, R1, R2" w).regs[0] = 0xB0 := ⟨rfl, rfl, rfl, by decide, by decide⟩

-- For CompareFrame, LoadFrame, StoreFrame and BranchAndNopFrame.
theorem test_witness_OtherFrames :
    exec (ins "CMP R0, #1") w = .next (after "CMP R0, #1" w) ∧ exec (ins "LDR R3, [R0]") w = .next (after "LDR R3, [R0]" w) ∧
    exec (ins "STR R1, [R0]") w = .next (after "STR R1, [R0]" w) ∧ exec (ins "B L") w = .next (after "B L" w) ∧
    inWindow w.config.memBase (effAddr w (some 0)) = true ∧ 1 ≠ wordIndex w.config.memBase (effAddr w (some 0)) ∧
    (after "STR R1, [R0]" w).mem = [(2, 5)] := ⟨rfl, rfl, rfl, rfl, by decide, by decide, by decide⟩

/-- A RUN state about to store to word 2, which it changes. -/
def ws : State := at' ["STR R1, [R0]"] 0 w

theorem test_witness_OneWritePerStep :
    ws.phase = .run ∧ ws.prog[ws.pc]? = some (recOf "STR R1, [R0]") ∧ step ws = .next (got w (step ws)) ∧
    (recOf "STR R1, [R0]").kind = .str ∧ inWindow ws.config.memBase (effAddr ws (recOf "STR R1, [R0]").rn) = true ∧
    wordIndex ws.config.memBase (effAddr ws (recOf "STR R1, [R0]").rn) = 2 ∧ (got w (step ws)).mem = [(2, 5)] :=
  ⟨by decide, by decide, rfl, by decide, by decide, by decide, by decide⟩

-- The register clause at a kind that writes one, and the last clause at a skipped and at a label-only step.
theorem test_witness_OneWritePerStep_others :
    (recOf "ADDNE R0, R1, R2").rd ≠ some 1 ∧ condHolds (recOf "ADDNE R0, R1, R2").cond (wp 1).flags = false ∧
    step (wp 1) = .next (got w (step (wp 1))) ∧ (recOf "L:").kind = .invalid ∧
    step (wp 0) = .next (got w (step (wp 0))) := ⟨by decide, by decide, rfl, by decide, rfl⟩

theorem test_witness_CarryIsNeverRead : exec (ins "LSLS R0, R1, #0") w = .next (after "LSLS R0, R1, #0" w) := rfl

theorem test_witness_ExactlyFiveAddresses :
    cfg.baseOk ∧ 0x110#32 = cfg.memBase + BitVec.ofNat 32 (4 * 4) ∧ inWindow cfg.memBase 0x110#32 = true ∧
    inWindow cfg.memBase 0x114#32 = false ∧ wordIndex cfg.memBase 0x110#32 = 4 := by unfold Config.baseOk; decide

-- A base address at either end of what R54 admits.
theorem test_base_bounds :
    { cfg with memBase := 0#32 }.baseOk ∧ { cfg with memBase := 0xFFFFFFEC#32 }.baseOk ∧
    ¬ { cfg with memBase := 0xFFFFFFF0#32 }.baseOk ∧ ¬ { cfg with memBase := 2#32 }.baseOk := by
  unfold Config.baseOk; decide

theorem test_witness_LoadAfterStore :
    Memory.wf w.mem ∧ inWindow w.config.memBase (effAddr w (some 0)) = true ∧
    exec (.str .al false (some 1) (some 0)) w = .next (after "STR R1, [R0]" w) ∧
    effAddr (after "STR R1, [R0]" w) (some 0) = effAddr w (some 0) ∧
    exec (.ldr .al false (some 3) (some 0)) (after "STR R1, [R0]" w) =
      .next (after "LDR R3, [R0]" (after "STR R1, [R0]" w)) ∧
    (after "LDR R3, [R0]" (after "STR R1, [R0]" w)).regs[3] = 5 := ⟨by decide, by decide, rfl, by decide, rfl, by decide⟩

theorem test_witness_ResolveWritesOnlyTargets :
    { w with phase := Phase.resolve }.phase = .resolve ∧ ["L:", "BEQ L"][1]? = some "BEQ L" ∧ (recOf "BEQ L").kind = .b ∧
    (resolve cfg ([recOf "L:", recOf "BEQ L"]))[1]?.bind InstrRecord.target = some 0 := by decide

/-- A state about to resolve a branch to a label that nothing declares. -/
def wu : State := { w with phase := .resolve, prog := [recOf "BEQ X"], pc := 0 }

theorem test_witness_UnresolvedBranchFallsThrough :
    wu.phase = .resolve ∧ step wu = .next (got w (step wu)) ∧ wu.prog[(got w (step wu)).pc]? = some (recOf "BEQ X") ∧
    (recOf "BEQ X").kind = .b ∧ targetLabel wu.config.labelFields (recOf "BEQ X") = some (ascii "X") ∧
    (∀ d ∈ wu.prog, ¬ (d.hasLabel = true ∧ declLabel d = some (ascii "X"))) :=
  ⟨by decide, rfl, by decide, by decide, by decide, by decide⟩

theorem test_witness_ProgramFixedInRun : (wp 3).phase = .run ∧ step (wp 3) = .next (got w (step (wp 3))) := ⟨by decide, rfl⟩

theorem test_witness_DecodeOfEncode :
    cfg.mnemonicTable = defaultMnemonicTable ∧
    lineWellFormed (some (ascii "L")) (.add .le true (some 12) none (.imm 0xFFFFFFFF)) = true ∧
    lineWellFormed (some []) (.invalid true .al) = true ∧ lineWellFormed none (.beq false (some []) (some 3)) = true ∧
    lineWellFormed none (.b .ne true none none) = true := by decide

theorem test_witness_EverySpellingDecodes :
    tableOk defaultMnemonicTable ∧ (ascii "B", Kind.b) ∈ defaultMnemonicTable := by unfold tableOk; decide

theorem test_witness_OperandFieldsByKind :
    splitFirstWord (ascii "ADDS R1, R0") = (ascii "ADDS", ascii "R1, R0") ∧
    (decodeMnemonic cfg.mnemonicTable (splitFirstWord (ascii "L: BEQ")).1).kind = .invalid ∧
    (splitFirstWord (ascii "L: BEQ")).2 ≠ [] ∧
    splitFirstWord (splitFirstWord (ascii "L: BEQ")).2 = (ascii "BEQ", []) ∧
    decodeMnemonic cfg.mnemonicTable (ascii "ADDS") = { kind := .add, cond := .al, sflag := true } ∧
    decodeMnemonic cfg.mnemonicTable (ascii "BEQ") = { kind := .b, cond := .eq, sflag := false } ∧
    cfgSep.labelFields = .separate ∧ cfg.labelFields = .shared ∧
    (recOf "L: BEQ").hasLabel = true ∧ tokenize (splitFirstWord (splitFirstWord (ascii "L: BEQ")).2).2 = [] ∧
    splitFirstWord (splitFirstWord (ascii "L: BEQ X")).2 = (ascii "BEQ", ascii "X") ∧ tokenize (ascii "X") ≠ [] := by decide

theorem test_witness_UnrecognisedLineIsLabelOnly :
    (decodeMnemonic cfg.mnemonicTable (splitFirstWord (ascii "hello world")).1).kind = .invalid ∧
    (splitFirstWord (ascii "hello world")).2 ≠ [] ∧
    (decodeMnemonic cfg.mnemonicTable (splitFirstWord (splitFirstWord (ascii "hello world")).2).1).kind = .invalid ∧
    (splitFirstWord (ascii "L:")).2 = [] := by decide

theorem test_witness_DecodedRecordsCanonical :
    decode cfg (ascii "STR R1, [R0]") = .ok (recOf "STR R1, [R0]") ∧ decode cfg (ascii "junk") = .ok (recOf "junk") :=
  ⟨rfl, rfl⟩

theorem test_witness_RegisterBracketsOptional :
    (ascii "R4").head? ≠ some (ch '[') ∧ parseReg (some (ascii "[R4]")) = some 4 := by decide

theorem test_witness_LabelFieldsAgree :
    cfgSep.mnemonicTable = cfg.mnemonicTable ∧ ¬ ((recOf "BEQ L").kind = .b ∧ (recOf "BEQ L").hasLabel = true) ∧
    ¬ ((recOf "L: NOP").kind = .b ∧ (recOf "L: NOP").hasLabel = true) := by decide

theorem test_witness_RecordCodesReadBack :
    ((recOf "CMPLE R0, #5").kind = .cmp → (recOf "CMPLE R0, #5").sflag = true) ∧ 255 % 16 = 15 ∧ 0x70 / 16 % 8 = 7 := by decide

theorem test_witness_LoadStepAppendsRecord :
    (State.start cfg [ascii "NOP"]).phase = .load ∧ (State.start cfg []).input = [] ∧
    (State.start cfg [ascii "NOP"]).input = [ascii "NOP"] ∧ lineProblem (ascii "NOP") = none ∧
    lineProblem (ascii " NOP") = some .leadingWhitespace := by decide

-- For WholeProgramLoads and RunNeverStops.
theorem test_witness_WholeProgramLoads : ∀ l ∈ [ascii "L:", ascii "BEQ L"], lineProblem l = none := by decide

theorem test_witness_NothingStops : (wp 0).phase ≠ .load ∧ (State.start cfg []).phase = .load := by decide

/-- The invariant holds in a state in the middle of a run, with a taken branch next. -/
theorem test_witness_InvariantKept : Inv (wp 2) ∧ step (wp 2) = .next (got w (step (wp 2))) := by
  have hp : (wp 2).prog = [recOf "L:", recOf "ADDNE R0, R1, R2", { recOf "BEQ L" with target := some 0 }] := by decide
  refine ⟨?_, rfl⟩
  exact
    { memory := by decide
      base := by unfold Config.baseOk; decide
      pcBound := by decide
      records := by
        rw [hp]; intro r hr
        simp only [List.mem_cons, List.not_mem_nil, or_false] at hr
        rcases hr with rfl | rfl | rfl
        · refine ⟨by decide, by decide, ?_⟩
          rw [show (recOf "L:").kind = .invalid by decide]; decide
        · refine ⟨by decide, by decide, ?_⟩
          rw [show (recOf "ADDNE R0, R1, R2").kind = .add by decide]; trivial
        · refine ⟨by decide, by decide, ?_⟩
          change match (recOf "BEQ L").kind with | _ => _
          rw [show (recOf "BEQ L").kind = .b by decide]; decide
      targets := by
        rw [hp]; intro r hr t ht
        simp only [List.mem_cons, List.not_mem_nil, or_false] at hr
        rcases hr with rfl | rfl | rfl
        · exact absurd ht (by rw [show (recOf "L:").target = none by decide]; simp)
        · exact absurd ht (by rw [show (recOf "ADDNE R0, R1, R2").target = none by decide]; simp)
        · cases ht; decide
      preRun := by intro h; exact absurd h (by decide)
      resolved := fun _ => by decide
      loaded := fun _ => by decide
      halted := by intro h; exact absurd h (by decide) }

theorem test_witness_InvariantAtStart : cfg.baseOk := by unfold Config.baseOk; decide

/-! ### The table word runs as the first instruction after reset -/

theorem test_first_step_after_reset :
    (got State.reset (step (State.reset.withFetchWord 8 0b10000010))).flags = nzcv 0 1 0 0 ∧
    (got State.reset (step (State.reset.withFetchWord 8 0b10000010))).pc = 1 := ⟨rfl, rfl⟩

end Sys2Proof.Tests
end

section
/-! What one operation does to each component of the state: the registers, the memory, the flags and `pc`. -/

namespace Sys2Proof.Machine

open Sys2Proof Host

/-! ### Registers by index -/

theorem rdreg_in (s : State) {i : Nat} (h : i < 12) : rdreg s (some i) = s.regs[i] := readReg_in s.regs h

theorem rdreg_out (s : State) {i : Nat} (h : 12 ≤ i) : rdreg s (some i) = 0#32 := readReg_out s.regs h

theorem wrreg_out (s : State) {i : Nat} (v : Word) (h : 12 ≤ i) : wrreg s (some i) v = s := by
  rw [wrreg, writeReg_out s.regs v h]

/-- A write to one register leaves the reads of every other. -/
theorem readReg_writeReg_other (rs : Regs) {i : RegIdx} (v : Word) {j : Nat} (h : i ≠ some j) :
    readReg (writeReg rs i v) (some j) = readReg rs (some j) := by
  rw [readReg_writeReg, if_neg fun hij => h hij.1]

/-! ### Every operation as one gated operation -/

/-- What an instruction does when its condition holds, written out from R140 to R207. The invalid kind only advances
`pc`, labelled or not. -/
def effect (i : Instr) (s : State) : State :=
  match i with
  | .nop .. | .invalid .. => advance s
  | .add _ f rd rn op2 =>
    let a := firstVal s rn
    let b := op2val s op2
    finish s rd (a + b) f (addFlags a b (a + b))
  | .sub _ f rd rn op2 =>
    let a := firstVal s rn
    let b := op2val s op2
    finish s rd (a - b) f (subFlags a b (a - b))
  | .cmp _ rn op2 =>
    let a := firstVal s rn
    let b := op2val s op2
    finish s none (a - b) true (subFlags a b (a - b))
  | .and _ f rd rn op2 => let r := firstVal s rn &&& op2val s op2; finish s rd r f (logicFlags s.flags r)
  | .orr _ f rd rn op2 => let r := firstVal s rn ||| op2val s op2; finish s rd r f (logicFlags s.flags r)
  | .eor _ f rd rn op2 => let r := firstVal s rn ^^^ op2val s op2; finish s rd r f (logicFlags s.flags r)
  | .mov _ f rd op2 => let r := op2val s op2; finish s rd r f (logicFlags s.flags r)
  | .mvn _ f rd op2 => let r := ~~~(op2val s op2); finish s rd r f (logicFlags s.flags r)
  | .lsl _ f rd rn op2 =>
    let a := firstVal s rn
    let amt := op2val s op2
    finish s rd (lslResult a amt) f (shiftFlags s.flags true a amt (lslResult a amt))
  | .lsr _ f rd rn op2 =>
    let a := firstVal s rn
    let amt := op2val s op2
    finish s rd (lsrResult a amt) f (shiftFlags s.flags false a amt (lsrResult a amt))
  | .ldr _ _ rd rn => advance (loadWord s rd (effAddr s rn))
  | .str _ _ rd rn => advance (storeWord s rd (effAddr s rn))
  | .b _ _ _ target | .beq _ _ target => setPc s (branchNext target s)

/-- Every instruction is its effect behind the gate of its condition (R123, R124). A label-only line passes no gate
(R122), but its effect and a skip are the same. -/
theorem exec_eq_gate (i : Instr) (s : State) : exec i s = gate i.cond s (effect i) := by
  cases i with
  | invalid hl c =>
    cases hl with
    | true =>
      cases hc : condHolds c s.flags with
      | true => exact (gate_holds (effect (.invalid true c)) hc).symm
      | false => exact (gate_fails (effect (.invalid true c)) hc).symm
    | false => rfl
  | _ => rfl

/-- An operation has its effect, or only advances `pc`. -/
theorem exec_next {i : Instr} {s t : State} (h : exec i s = .next t) : t = effect i s ∨ t = advance s :=
  (gate_next (exec_eq_gate i s ▸ h)).imp And.right And.right

/-- An instruction whose condition fails only advances `pc` (R123). -/
theorem exec_condition_fails {i : Instr} {s : State} (h : condHolds i.cond s.flags = false) :
    exec i s = .next (advance s) := by
  rw [exec_eq_gate, gate_fails _ h]

/-- An instruction whose condition holds has its effect. -/
theorem exec_condition_holds {i : Instr} {s : State} (h : condHolds i.cond s.flags = true) :
    exec i s = .next (effect i s) := by
  rw [exec_eq_gate, gate_holds _ h]

/-- An instruction of the invalid kind, labelled or not, only advances `pc` (R206, R207). -/
theorem exec_of_kind_invalid {i : Instr} {s t : State} (h : exec i s = .next t) (hk : i.kind = .invalid) :
    t = advance s := by
  cases i with
  | invalid hl c => rcases exec_next h with ht | ht <;> exact ht
  | _ => cases hk

/-! ### What an operation writes -/

/-- The register an instruction writes its result to, as the table of R131 lists them. -/
def destReg : Instr → RegIdx
  | .add _ _ rd .. | .sub _ _ rd .. | .and _ _ rd .. | .orr _ _ rd .. | .eor _ _ rd .. | .mvn _ _ rd _
  | .lsl _ _ rd .. | .lsr _ _ rd .. | .mov _ _ rd _ | .ldr _ _ rd _ => rd
  | .nop .. | .invalid .. | .str .. | .cmp .. | .b .. | .beq .. => none

@[simp] theorem storeWord_regs (s : State) (rd : RegIdx) (addr : Word) : (storeWord s rd addr).regs = s.regs := by
  rcases storeWord_cases s rd addr with ⟨-, h⟩ | ⟨-, h⟩ <;> simp [h]

@[simp] theorem storeWord_flags (s : State) (rd : RegIdx) (addr : Word) :
    (storeWord s rd addr).flags = s.flags := by
  rcases storeWord_cases s rd addr with ⟨-, h⟩ | ⟨-, h⟩ <;> simp [h]

@[simp] theorem loadWord_mem (s : State) (rd : RegIdx) (addr : Word) : (loadWord s rd addr).mem = s.mem := by
  rcases loadWord_cases s rd addr with ⟨-, h⟩ | ⟨-, h⟩ <;> simp [h]

@[simp] theorem loadWord_flags (s : State) (rd : RegIdx) (addr : Word) : (loadWord s rd addr).flags = s.flags := by
  rcases loadWord_cases s rd addr with ⟨-, h⟩ | ⟨-, h⟩ <;> simp [h]

/-- The registers after an effect: as before, or with one write to the destination. -/
theorem effect_regs (i : Instr) (s : State) :
    (effect i s).regs = s.regs ∨ ∃ v, (effect i s).regs = writeReg s.regs (destReg i) v := by
  cases i with
  | ldr c f rd rn =>
    rcases loadWord_cases s rd (effAddr s rn) with ⟨-, hl⟩ | ⟨-, hl⟩
    · exact .inr ⟨_, by rw [effect, advance_regs, hl]; exact wrreg_regs ..⟩
    · exact .inl (by rw [effect, advance_regs, hl])
  | str c f rd rn => exact .inl (storeWord_regs ..)
  | nop | invalid | cmp | b | beq => exact .inl rfl
  | _ => exact .inr ⟨_, rfl⟩

/-- Every register but the destination reads as before (R34). -/
theorem exec_rdreg_other {i : Instr} {s t : State} (h : exec i s = .next t) {j : Nat} (hj : destReg i ≠ some j) :
    rdreg t (some j) = rdreg s (some j) := by
  rcases exec_next h with rfl | rfl
  · rcases effect_regs i s with hr | ⟨v, hr⟩ <;> rw [rdreg, rdreg, hr]
    exact readReg_writeReg_other _ _ hj
  · rfl

/-- The memory after an effect: as before, or, for a store in the window, with the one selected word written. -/
theorem effect_mem (i : Instr) (s : State) :
    (effect i s).mem = s.mem ∨
    ∃ c f rd rn, i = .str c f rd rn ∧ inWindow s.config.memBase (effAddr s rn) = true ∧
      (effect i s).mem = Memory.write s.mem (wordIndex s.config.memBase (effAddr s rn)) (rdreg s rd) := by
  cases i with
  | str c f rd rn =>
    rcases storeWord_cases s rd (effAddr s rn) with ⟨hw, hs⟩ | ⟨-, hs⟩
    · exact .inr ⟨c, f, rd, rn, rfl, hw, by rw [effect, advance_mem, hs, memWrite_mem]⟩
    · exact .inl (by rw [effect, advance_mem, hs])
  | ldr c f rd rn => exact .inl (loadWord_mem ..)
  | _ => exact .inl rfl

/-- What an operation can do to the memory. -/
theorem exec_mem {i : Instr} {s t : State} (h : exec i s = .next t) :
    t.mem = s.mem ∨
    ∃ c f rd rn, i = .str c f rd rn ∧ inWindow s.config.memBase (effAddr s rn) = true ∧
      t.mem = Memory.write s.mem (wordIndex s.config.memBase (effAddr s rn)) (rdreg s rd) := by
  rcases exec_next h with rfl | rfl
  · exact effect_mem i s
  · exact .inl rfl

/-- Only a store writes memory. -/
theorem exec_mem_of_kind_ne_str {i : Instr} {s t : State} (h : exec i s = .next t) (hk : i.kind ≠ .str) :
    t.mem = s.mem := by
  rcases exec_mem h with hm | ⟨c, f, rd, rn, rfl, -, -⟩
  · exact hm
  · exact absurd rfl hk

/-- An operation keeps the canonical form of the memory. -/
theorem exec_mem_wf {i : Instr} {s t : State} (h : exec i s = .next t) (hm : Memory.wf s.mem) :
    Memory.wf t.mem := by
  rcases exec_mem h with ht | ⟨c, f, rd, rn, -, hw, ht⟩
  · rwa [ht]
  · rw [ht]
    exact Memory.write_wf hm (inWindow_wordIndex hw).1 _

/-! ### The flags -/

@[simp] theorem logicFlags_c (f : Flags) (r : Word) : (logicFlags f r).c = f.c := rfl
@[simp] theorem logicFlags_v (f : Flags) (r : Word) : (logicFlags f r).v = f.v := rfl
@[simp] theorem shiftFlags_v (f : Flags) (isLeft : Bool) (a amt r : Word) :
    (shiftFlags f isLeft a amt r).v = f.v := rfl

/-- Without the marker only a compare changes flags (R133, R142). -/
theorem effect_flags_unmarked {i : Instr} (s : State) (hf : i.marked = false) (hk : i.kind ≠ .cmp) :
    (effect i s).flags = s.flags := by
  cases i with
  | nop | invalid | b | beq => rfl
  | cmp => exact absurd rfl hk
  | ldr => exact loadWord_flags ..
  | str => exact storeWord_flags ..
  | _ => cases hf; rfl

/-- Only the additions and subtractions change `V` (R143, R144). -/
theorem effect_flags_v {i : Instr} (s : State) (hk : i.kind ∉ [Kind.add, .sub, .cmp]) :
    (effect i s).flags.v = s.flags.v := by
  cases i with
  | nop | invalid | b | beq => rfl
  | add | sub | cmp => simp [Instr.kind] at hk
  | ldr => exact congrArg _ (loadWord_flags ..)
  | str => exact congrArg _ (storeWord_flags ..)
  | lsl c f | lsr c f => cases f <;> rfl
  | and c f | orr c f | eor c f | mov c f | mvn c f => cases f <;> rfl

/-- Only the additions, the subtractions and the shifts change `C` (R143, R144, R163). -/
theorem effect_flags_c {i : Instr} (s : State) (hk : i.kind ∉ [Kind.add, .sub, .cmp, .lsl, .lsr]) :
    (effect i s).flags.c = s.flags.c := by
  cases i with
  | nop | invalid | b | beq => rfl
  | add | sub | cmp | lsl | lsr => simp [Instr.kind] at hk
  | ldr => exact congrArg _ (loadWord_flags ..)
  | str => exact congrArg _ (storeWord_flags ..)
  | and c f | orr c f | eor c f | mov c f | mvn c f => cases f <;> rfl

/-- Without the marker only a compare changes flags. -/
theorem exec_flags_unmarked {i : Instr} {s t : State} (h : exec i s = .next t) (hf : i.marked = false)
    (hk : i.kind ≠ .cmp) : t.flags = s.flags := by
  rcases exec_next h with rfl | rfl
  · exact effect_flags_unmarked s hf hk
  · rfl

/-- Only the additions and subtractions change `V`, executed or skipped. -/
theorem exec_flags_v {i : Instr} {s t : State} (h : exec i s = .next t)
    (hk : i.kind ∉ [Kind.add, .sub, .cmp]) : t.flags.v = s.flags.v := by
  rcases exec_next h with rfl | rfl
  · exact effect_flags_v s hk
  · rfl

/-- Only the additions, the subtractions and the shifts change `C`, executed or skipped. -/
theorem exec_flags_c {i : Instr} {s t : State} (h : exec i s = .next t)
    (hk : i.kind ∉ [Kind.add, .sub, .cmp, .lsl, .lsr]) : t.flags.c = s.flags.c := by
  rcases exec_next h with rfl | rfl
  · exact effect_flags_c s hk
  · rfl

/-! ### The program counter -/

/-- A branch goes to an index of the program or to the next line (R194, R196). -/
theorem branchNext_le {s : State} (target : Option Nat) (h : s.pc < s.prog.length) :
    branchNext target s ≤ s.prog.length := by
  unfold branchNext
  split
  · split
    · next ht => simp only [Bool.and_eq_true, decide_eq_true_eq] at ht; omega
    · omega
  · omega

/-- From a `pc` within the program an operation leaves `pc` at most at the program's end (R25). -/
theorem exec_pc_le {i : Instr} {s t : State} (h : exec i s = .next t) (hpc : s.pc < s.prog.length) :
    t.pc ≤ s.prog.length := by
  rcases exec_cases h with rfl | ⟨rd, r, f, fl, rfl⟩ | ⟨rd, addr, rfl⟩ | ⟨rd, addr, rfl⟩ | ⟨target, rfl⟩
  · exact hpc
  · exact hpc
  · rcases loadWord_cases s rd addr with ⟨-, hl⟩ | ⟨-, hl⟩ <;> rw [advance_pc, hl] <;> exact hpc
  · rcases storeWord_cases s rd addr with ⟨-, hs⟩ | ⟨-, hs⟩ <;> rw [advance_pc, hs] <;> exact hpc
  · exact branchNext_le target hpc

end Sys2Proof.Machine
end

section
/-! What the decoder gives: the shape of a record, and the names a branch operand can have (R72 to R83). -/

namespace Sys2Proof

/-! ### Operand fields -/

/-- A field of a comma-separated text holds no comma. -/
theorem comma_notMem_of_mem_splitCommas {s f : Text} (hf : f ∈ splitCommas s) : ch ',' ∉ f := by
  induction s generalizing f with
  | nil => simp_all [splitCommas]
  | cons c cs ih =>
    rw [splitCommas] at hf
    split at hf
    · rcases List.mem_cons.mp hf with rfl | hf
      · exact List.not_mem_nil
      · exact ih hf
    · next hc =>
      split at hf
      · rw [List.mem_singleton.mp hf, List.mem_singleton]
        exact Ne.symm hc
      · next g gs hs =>
        rcases List.mem_cons.mp hf with rfl | hf
        · have hg : ch ',' ∉ g := ih (by simp [hs])
          simp [hg, Ne.symm hc]
        · exact ih (by simp [hs, hf])

/-- The characters of a field are characters of the text. -/
theorem subset_of_mem_splitCommas {s f : Text} (hf : f ∈ splitCommas s) : f ⊆ s := by
  induction s generalizing f with
  | nil => simp_all [splitCommas]
  | cons c cs ih =>
    rw [splitCommas] at hf
    split at hf
    · rcases List.mem_cons.mp hf with rfl | hf
      · exact List.nil_subset _
      · exact List.subset_cons_of_subset _ (ih hf)
    · split at hf
      · simp_all
      · next g gs hs =>
        rcases List.mem_cons.mp hf with rfl | hf
        · exact List.cons_subset_cons _ (ih (by simp [hs]))
        · exact List.subset_cons_of_subset _ (ih (by simp [hs, hf]))

theorem trimWs_eq_rdropWhile (t : Text) : trimWs t = (t.dropWhile isWs).rdropWhile isWs := rfl

theorem trimWs_subset (t : Text) : trimWs t ⊆ t :=
  fun _ h => List.dropWhile_subset _ ((List.rdropWhile_prefix _ _).subset h)

/-- Trimming at the end leaves the first character, which is no whitespace, in place. -/
theorem trimWs_idem (t : Text) : trimWs (trimWs t) = trimWs t := by
  have hpre : trimWs t <+: t.dropWhile isWs := List.rdropWhile_prefix ..
  have hdrop : (trimWs t).dropWhile isWs = trimWs t := by
    refine List.dropWhile_eq_self_iff.mpr fun hl => ?_
    rw [hpre.getElem hl]
    exact List.dropWhile_get_zero_not isWs t (Nat.lt_of_lt_of_le hl hpre.length_le)
  rw [trimWs_eq_rdropWhile (trimWs t), hdrop]
  exact List.rdropWhile_idempotent ..

/-- A token is a field of the operand text, trimmed. -/
theorem exists_field_of_mem_tokenize {s t : Text} (h : t ∈ tokenize s) : ∃ f ∈ splitCommas s, t = trimWs f := by
  unfold tokenize at h
  split at h
  · exact absurd h List.not_mem_nil
  · have hm : t ∈ (splitCommas s).map trimWs := by
      simpa using List.dropWhile_subset _ (List.mem_reverse.mp h)
    obtain ⟨f, hf, rfl⟩ := List.mem_map.mp hm
    exact ⟨f, hf, rfl⟩

/-- A token of an operand text without line ends is a name a branch operand can have (R72). -/
theorem operandNameOk_of_mem_tokenize {s t : Text} (hs : textOk s = true) (h : t ∈ tokenize s) :
    operandNameOk t = true := by
  obtain ⟨f, hf, rfl⟩ := exists_field_of_mem_tokenize h
  have hchars : ∀ c ∈ s, isLineEnd c = false := by simpa [textOk] using hs
  have hline : ∀ c ∈ trimWs f, isLineEnd c = false :=
    fun c hc => hchars c (subset_of_mem_splitCommas hf (trimWs_subset f hc))
  have hcomma : ∀ c ∈ trimWs f, c ≠ ch ',' := by
    rintro c hc rfl
    exact comma_notMem_of_mem_splitCommas hf (trimWs_subset f hc)
  simpa [operandNameOk, textOk, trimWs_idem] using ⟨hline, hcomma⟩

/-! ### The record of a line -/

/-- The record of a line before its operands are read: everything at its default, and the declared label, if any. -/
def lineRecord (line : Text) (l : Option Text) : InstrRecord :=
  { InstrRecord.blank line with hasLabel := l.isSome, label := l }

theorem splitFirstWord_snd_subset (s : Text) : (splitFirstWord s).2 ⊆ s :=
  fun _ h => List.dropWhile_subset _ (List.dropWhile_subset _ (List.dropWhile_subset _ h))

/-- A decoded line is label-only, or an instruction with operands read from the line, with or without a label (R83). -/
theorem decodeLine_cases (cfg : Config) (line : Text) :
    (∃ l, decodeLine cfg line = lineRecord line (some l)) ∨
    ∃ l m ops, m.kind ≠ .invalid ∧ ops ⊆ line ∧
      decodeLine cfg line = fillOperands cfg.labelFields m ops (lineRecord line l) := by
  have hrest : (splitFirstWord line).2 ⊆ line := splitFirstWord_snd_subset line
  have hrest2 : (splitFirstWord (splitFirstWord line).2).2 ⊆ line :=
    List.Subset.trans (splitFirstWord_snd_subset _) hrest
  simp only [decodeLine]
  split
  · next hk => exact .inr ⟨none, _, _, hk, hrest, rfl⟩
  · split
    · exact .inl ⟨_, rfl⟩
    · split
      · exact .inl ⟨_, rfl⟩
      · next hk => exact .inr ⟨some _, _, _, hk, hrest2, rfl⟩

section
variable (lf : LabelFields) (m : Mnemonic) (ops : Text)

@[simp] theorem setTargetLabel_raw (t : Text) (r : InstrRecord) : (setTargetLabel lf t r).raw = r.raw := by
  cases lf <;> rfl

@[simp] theorem setTargetLabel_target (t : Text) (r : InstrRecord) : (setTargetLabel lf t r).target = r.target := by
  cases lf <;> rfl

@[simp] theorem setTargetLabel_tlabel (t : Text) (r : InstrRecord) : (setTargetLabel lf t r).tlabel = some t := by
  cases lf <;> rfl

@[simp] theorem fillOperands_raw (r : InstrRecord) : (fillOperands lf m ops r).raw = r.raw := by
  obtain ⟨k, c, f⟩ := m
  cases k with
  | b => cases h : (tokenize ops)[0]? <;> simp [fillOperands, h]
  | _ => rfl

@[simp] theorem fillOperands_target (r : InstrRecord) : (fillOperands lf m ops r).target = r.target := by
  obtain ⟨k, c, f⟩ := m
  cases k with
  | b => cases h : (tokenize ops)[0]? <;> simp [fillOperands, h]
  | _ => rfl

/-- The target label of a record is a token of its operands (R80). -/
theorem fillOperands_tlabel {r : InstrRecord} (hr : r.tlabel = none) {t : Text}
    (ht : (fillOperands lf m ops r).tlabel = some t) : t ∈ tokenize ops := by
  obtain ⟨k, c, f⟩ := m
  cases k with
  | b =>
    cases h : (tokenize ops)[0]? with
    | none => simp [fillOperands, h, hr] at ht
    | some u =>
      have hu : u = t := by simpa [fillOperands, h] using ht
      exact hu ▸ List.mem_of_getElem? h
  | _ => exact absurd (hr.symm.trans ht) (by simp)

end

end Sys2Proof

namespace Sys2Proof.Machine

open Sys2Proof

theorem canonicalRecord_lineRecord (line l : Text) : canonicalRecord (lineRecord line (some l)) := by
  simp [canonicalRecord, lineRecord, InstrRecord.blank]

/-- Operand interpretation fills the fields of the kind and no other (R76 to R81). -/
theorem canonicalRecord_fillOperands (lf : LabelFields) {m : Mnemonic} (hm : m.kind ≠ .invalid) (ops line : Text)
    (l : Option Text) : canonicalRecord (fillOperands lf m ops (lineRecord line l)) := by
  obtain ⟨k, c, f⟩ := m
  cases k with
  | invalid => exact absurd rfl hm
  | b =>
    cases h : (tokenize ops)[0]? with
    | none => simp [canonicalRecord, fillOperands, h, lineRecord, InstrRecord.blank]
    | some t => cases lf <;> simp [canonicalRecord, fillOperands, h, setTargetLabel, lineRecord, InstrRecord.blank]
  | _ => simp [canonicalRecord, fillOperands, lineRecord, InstrRecord.blank]

/-- Every decoded line has the canonical shape of its kind (R31). -/
theorem canonicalRecord_decodeLine (cfg : Config) (line : Text) : canonicalRecord (decodeLine cfg line) := by
  rcases decodeLine_cases cfg line with ⟨l, h⟩ | ⟨l, m, ops, hm, -, h⟩ <;> rw [h]
  · exact canonicalRecord_lineRecord line l
  · exact canonicalRecord_fillOperands _ hm ops line l

end Sys2Proof.Machine

namespace Sys2Proof

@[simp] theorem decodeLine_raw (cfg : Config) (line : Text) : (decodeLine cfg line).raw = line := by
  rcases decodeLine_cases cfg line with ⟨l, h⟩ | ⟨l, m, ops, -, -, h⟩ <;> rw [h]
  · rfl
  · rw [fillOperands_raw]; rfl

@[simp] theorem decodeLine_target (cfg : Config) (line : Text) : (decodeLine cfg line).target = none := by
  rcases decodeLine_cases cfg line with ⟨l, h⟩ | ⟨l, m, ops, -, -, h⟩ <;> rw [h]
  · rfl
  · rw [fillOperands_target]; rfl

/-- The target label of a decoded line without line ends is an operand name. -/
theorem decodeLine_tlabel_ok (cfg : Config) {line : Text} (hline : textOk line = true) :
    (decodeLine cfg line).tlabel.all operandNameOk = true := by
  rcases decodeLine_cases cfg line with ⟨l, h⟩ | ⟨l, m, ops, -, hops, h⟩
  · rw [h]; rfl
  · have hok : textOk ops = true := by
      simp only [textOk, List.all_eq_true] at hline ⊢
      exact fun c hc => hline c (hops hc)
    cases ht : (decodeLine cfg line).tlabel with
    | none => rfl
    | some t =>
      rw [h] at ht
      exact operandNameOk_of_mem_tokenize hok (fillOperands_tlabel _ m ops rfl ht)

/-- A line of the contract holds no line-end character (U7). -/
theorem textOk_of_lineProblem_eq_none {line : Text} (h : lineProblem line = none) : textOk line = true := by
  cases line with
  | nil => cases h
  | cons c cs =>
    have hany : (c :: cs).any isLineEnd = false := by
      cases ha : (c :: cs).any isLineEnd with
      | false => rfl
      | true => simp [lineProblem, ha] at h
    simpa [textOk] using hany

theorem decode_eq_ok {cfg : Config} {line : Text} {r : InstrRecord} (h : decode cfg line = .ok r) :
    lineProblem line = none ∧ r = decodeLine cfg line := by
  unfold decode at h
  split at h
  · cases h
  · next hp => cases h; exact ⟨hp, rfl⟩

/-! ### The instruction of a record -/

@[simp] theorem InstrRecord.instr_kind (r : InstrRecord) : r.instr.kind = r.kind := by
  obtain ⟨k, _, c⟩ := r
  cases k with
  | b => cases c <;> rfl
  | _ => rfl

@[simp] theorem InstrRecord.instr_cond (r : InstrRecord) : r.instr.cond = r.cond := by
  obtain ⟨k, _, c⟩ := r
  cases k with
  | b => cases c <;> rfl
  | _ => rfl

/-- A record of canonical shape with an admissible target label stands for a well-formed instruction. -/
theorem InstrRecord.instr_wellFormed {r : InstrRecord} (hr : Machine.canonicalRecord r)
    (ht : r.tlabel.all operandNameOk = true) : r.instr.wellFormed = true := by
  obtain ⟨-, -, hshape⟩ := hr
  obtain ⟨k, _, c⟩ := r
  cases k with
  | invalid =>
    obtain ⟨hl, hc, -⟩ := hshape
    simp_all [instr, Instr.wellFormed]
  | b => cases c <;> exact ht
  | _ => rfl

/-- A record that stands for a store is one of kind `STR`, with the store's operands. -/
theorem InstrRecord.of_instr_eq_str {r : InstrRecord} {c : Cond} {f : Bool} {rd rn : RegIdx}
    (h : r.instr = .str c f rd rn) : r.kind = .str ∧ r.rn = rn := by
  have hk : r.kind = .str := by rw [← instr_kind, h]; rfl
  simp only [instr, hk, Instr.str.injEq] at h
  exact ⟨hk, h.2.2.2⟩

end Sys2Proof

end

section
/-! The resolver's result (R190 to R196), the invariant at the start, and that every step keeps it. -/

namespace Sys2Proof.Machine

open Sys2Proof Host

/-! ### The resolver -/

/-- A label is found at an index of the program (R196). -/
theorem findLabel_lt {prog : List InstrRecord} {t : Option Text} {k : Nat} (h : findLabel prog t = some k) :
    k < prog.length := by
  cases t with
  | none => cases h
  | some t => exact (List.findIdx?_eq_some_iff_getElem.mp h).1

/-- Resolving writes no field that says what a record declares. -/
theorem declares_resolveRecord (cfg : Config) (prog : List InstrRecord) (t : Text) (r : InstrRecord) :
    declares t (resolveRecord cfg prog r) = declares t r := by
  unfold resolveRecord
  split <;> rfl

theorem resolve_length (cfg : Config) (prog : List InstrRecord) : (resolve cfg prog).length = prog.length :=
  List.length_map _

/-- The labels of a resolved program are found where they were (R193). -/
theorem findLabel_resolve (cfg : Config) (prog : List InstrRecord) (t : Option Text) :
    findLabel (resolve cfg prog) t = findLabel prog t := by
  cases t with
  | none => rfl
  | some t =>
    have hcomp : declares t ∘ resolveRecord cfg prog = declares t :=
      funext fun r => declares_resolveRecord cfg prog t r
    rw [findLabel, resolve, List.findIdx?_map, hcomp, findLabel]

theorem resolveRecord_resolveRecord (cfg : Config) (prog : List InstrRecord) (r : InstrRecord) :
    resolveRecord cfg (resolve cfg prog) (resolveRecord cfg prog r) = resolveRecord cfg prog r := by
  by_cases hk : r.kind = .b
  · simp only [resolveRecord, hk, if_true, findLabel_resolve]
    rfl
  · simp only [resolveRecord, hk, if_false]

/-- Resolving again changes nothing (R193). -/
theorem resolve_resolve (cfg : Config) (prog : List InstrRecord) :
    resolve cfg (resolve cfg prog) = resolve cfg prog := by
  conv_lhs => rw [resolve]
  rw [resolve, List.map_map]
  exact List.map_congr_left fun r _ => resolveRecord_resolveRecord cfg prog r

/-- Resolving keeps the shape of a record: only a branch gets a target. -/
theorem canonicalRecord_resolveRecord {r : InstrRecord} (hr : canonicalRecord r) (cfg : Config)
    (prog : List InstrRecord) : canonicalRecord (resolveRecord cfg prog r) := by
  unfold resolveRecord
  split
  · next hk =>
    obtain ⟨-, hlabel, hshape⟩ := hr
    exact ⟨fun hne => absurd hk hne, hlabel, hshape⟩
  · exact hr

/-- The targets of a resolved program are indices of it (R196). -/
theorem resolveRecord_target_lt {cfg : Config} {prog : List InstrRecord} {r : InstrRecord}
    (hr : r.target = none) {t : Nat} (ht : (resolveRecord cfg prog r).target = some t) : t < prog.length := by
  unfold resolveRecord at ht
  split at ht
  · exact findLabel_lt ht
  · exact absurd (hr.symm.trans ht) (by simp)

/-! ### The invariant, phase by phase -/

/-- Decoding the next line keeps the invariant: the new record has the decoder's shape and no target. -/
theorem Inv.append_decoded {s : State} (h : Inv s) (hp : s.phase = .load) (line : Text) (rest : List Text) :
    Inv { s with input := rest, prog := s.prog ++ [decodeLine s.config line] } := by
  obtain ⟨hreset, hemitted, htarget⟩ := h.preRun (.inl hp)
  have hmem : ∀ r ∈ s.prog ++ [decodeLine s.config line], r ∈ s.prog ∨ r = decodeLine s.config line :=
    fun r hr => (List.mem_append.mp hr).imp_right List.mem_singleton.mp
  have hnone : ∀ r ∈ s.prog ++ [decodeLine s.config line], r.target = none := fun r hr => by
    rcases hmem r hr with hr | rfl
    · exact htarget r hr
    · exact decodeLine_target s.config line
  exact
    { memory := h.memory
      base := h.base
      pcBound := by
        have := h.pcBound
        simp only [List.length_append]
        omega
      records := fun r hr => by
        rcases hmem r hr with hr | rfl
        · exact h.records r hr
        · exact canonicalRecord_decodeLine s.config line
      targets := fun r hr t ht => absurd ((hnone r hr).symm.trans ht) (by simp)
      preRun := fun _ => ⟨hreset, hemitted, hnone⟩
      resolved := fun hrun => by simp [hp] at hrun
      loaded := fun hne => absurd hp hne
      halted := fun hhalt => by simp [hp] at hhalt }

/-- The end of LOAD keeps the invariant. -/
theorem Inv.enter_resolve {s : State} (h : Inv s) (hp : s.phase = .load) (hi : s.input = []) :
    Inv { s with phase := .resolve } :=
  { memory := h.memory
    base := h.base
    pcBound := h.pcBound
    records := h.records
    targets := h.targets
    preRun := fun _ => h.preRun (.inl hp)
    resolved := fun hrun => by simp at hrun
    loaded := fun _ => hi
    halted := fun hhalt => by simp at hhalt }

/-- Resolving keeps the invariant: every target is an index of the program, and is what its label gives. -/
theorem Inv.enter_run {s : State} (h : Inv s) (hp : s.phase = .resolve) :
    Inv { s with prog := resolve s.config s.prog, phase := .run } := by
  obtain ⟨-, -, htarget⟩ := h.preRun (.inr hp)
  exact
    { memory := h.memory
      base := h.base
      pcBound := (resolve_length s.config s.prog).symm ▸ h.pcBound
      records := fun r hr => by
        obtain ⟨r₀, hr₀, rfl⟩ := List.mem_map.mp hr
        exact canonicalRecord_resolveRecord (h.records r₀ hr₀) s.config s.prog
      targets := fun r hr t ht => by
        obtain ⟨r₀, hr₀, rfl⟩ := List.mem_map.mp hr
        exact (resolve_length s.config s.prog).symm ▸ resolveRecord_target_lt (htarget r₀ hr₀) ht
      preRun := fun hpre => by simp at hpre
      resolved := fun _ => (resolve_resolve s.config s.prog).symm
      loaded := fun _ => h.loaded (by simp [hp])
      halted := fun hhalt => by simp at hhalt }

/-- The end of a run keeps the invariant: `pc` is the program's length, neither below it nor above (R25, R245). -/
theorem Inv.enter_halt {s : State} (h : Inv s) (hp : s.phase = .run) (hpc : s.prog.length ≤ s.pc) :
    Inv { s with phase := .halt } :=
  { memory := h.memory
    base := h.base
    pcBound := h.pcBound
    records := h.records
    targets := h.targets
    preRun := fun hpre => by simp at hpre
    resolved := fun _ => h.resolved (.inl hp)
    loaded := fun _ => h.loaded (by simp [hp])
    halted := fun _ => Nat.le_antisymm h.pcBound hpc }

/-- An operation of the RUN phase keeps the invariant: it writes registers, flags, `pc` and memory only. -/
theorem Inv.exec_emit {s u : State} (h : Inv s) (hp : s.phase = .run) (hpc : s.pc < s.prog.length) {i : Instr}
    (hu : exec i s = .next u) (raw : Text) : Inv (emitSnapshot raw u) := by
  obtain ⟨hconfig, hphase, hinput, hprog, -⟩ := exec_keeps hu
  exact
    { memory := by rw [emitSnapshot_mem]; exact exec_mem_wf hu h.memory
      base := by rw [emitSnapshot_config, hconfig]; exact h.base
      pcBound := by rw [emitSnapshot_pc, emitSnapshot_prog, hprog]; exact exec_pc_le hu hpc
      records := by rw [emitSnapshot_prog, hprog]; exact h.records
      targets := by rw [emitSnapshot_prog, hprog]; exact h.targets
      preRun := fun hpre => by simp [hphase, hp] at hpre
      resolved := fun _ => by
        rw [emitSnapshot_prog, emitSnapshot_config, hprog, hconfig]
        exact h.resolved (.inl hp)
      loaded := fun _ => by rw [emitSnapshot_input, hinput]; exact h.loaded (by simp [hp])
      halted := fun hhalt => by simp [hphase, hp] at hhalt }

/-- The invariant holds at the start of every run whose base address meets R54's constraints. -/
theorem inv_start {cfg : Config} (hbase : cfg.baseOk) (lines : List Text) : Inv (State.start cfg lines) :=
  { memory := ⟨List.Pairwise.nil, fun _ he => absurd he List.not_mem_nil⟩
    base := hbase
    pcBound := Nat.le_refl 0
    records := fun _ hr => absurd hr List.not_mem_nil
    targets := fun _ hr => absurd hr List.not_mem_nil
    preRun := fun _ => ⟨⟨rfl, rfl, rfl, rfl⟩, rfl, fun _ hr => absurd hr List.not_mem_nil⟩
    resolved := fun hrun => by simp [State.start, State.resetWith] at hrun
    loaded := fun hne => absurd rfl hne
    halted := fun hhalt => by cases hhalt }

/-- The platform's base address meets R54's constraints, whichever of the admitted ones it is. -/
theorem platformConfig_baseOk : platformConfig.baseOk := by
  have hlt : Config.platformMemBase.val < 1073741820 := Config.platformMemBase.isLt
  rw [baseOk_iff, platform_memBase]
  omega

/-- Settles O59: by the phase of the step, one lemma for each. -/
theorem invariantKept : Obligations.InvariantKept := by
  intro s t h hstep
  rcases step_cases hstep with ⟨hp, hi, rfl⟩ | ⟨hp, line, rest, -, -, rfl⟩ | ⟨hp, rfl⟩ | ⟨hp, hnone, rfl⟩ |
    ⟨hp, r, u, hr, hu, rfl⟩ | ⟨-, rfl⟩
  · exact h.enter_resolve hp hi
  · exact h.append_decoded hp line rest
  · exact h.enter_run hp
  · exact h.enter_halt hp (List.getElem?_eq_none_iff.mp hnone)
  · exact h.exec_emit hp (List.getElem?_eq_some_iff.mp hr).1 hu r.raw
  · exact h

/-- Settles O58: the platform's reset is a start without lines. -/
theorem invariantAtStart : Obligations.InvariantAtStart :=
  ⟨fun _ lines hbase => inv_start hbase lines, inv_start platformConfig_baseOk []⟩

end Sys2Proof.Machine
end

section
/-! Reset and registers (R21, R22, R33, R240), the signed reading of the flags of a subtraction (R24, R125, R144), the
frame of an operation (R34, R131), the carry (R24), and the coded fields of a record (R85). -/

namespace Sys2Proof.Machine

open Sys2Proof Host

/-! ### Reset and register access -/

/-- Settles O1. -/
theorem resetClearsMachineState : Obligations.ResetClearsMachineState := by
  intro cfg lines
  have hregs : ∀ i, i < 12 → rdreg (State.start cfg lines) (some i) = 0#32 := fun i hi => by
    rw [rdreg_in _ hi]
    exact Vector.getElem_replicate ..
  exact ⟨hregs, fun k _ => Memory.read_nil k, rfl, rfl, rfl, rfl, rfl, rfl, rfl, rfl, rfl, rfl⟩

/-- Settles O2. -/
theorem registerReadByIndex : Obligations.RegisterReadByIndex :=
  fun s _ => ⟨rdreg_in s, rdreg_out s, rfl⟩

/-- Settles O3. -/
theorem registerWriteByIndex : Obligations.RegisterWriteByIndex := by
  intro s i v
  refine ⟨fun _ j hj => ?_, rfl, wrreg_out s v, rfl⟩
  simp only [wrreg_regs, writeReg_getElem _ _ _ hj, eq_comm]

/-! ### The signed meaning of the flags -/

theorem signBit_eq_msb (w : Word) : signBit w = w.msb := rfl

/-- The `V` of an addition is the library's signed overflow. -/
theorem addFlags_v (a b : Word) : (addFlags a b (a + b)).v = a.saddOverflow b := by
  rw [BitVec.saddOverflow_eq]
  simp only [addFlags, setNZ, signBit_eq_msb, BitVec.msb_and, BitVec.msb_xor, BitVec.msb_not]
  cases a.msb <;> cases b.msb <;> cases (a + b).msb <;> rfl

/-- The `V` of a subtraction is the library's signed overflow. -/
theorem subFlags_v (a b : Word) : (subFlags a b (a - b)).v = a.ssubOverflow b := by
  rw [BitVec.ssubOverflow_eq]
  simp only [subFlags, setNZ, signBit_eq_msb, BitVec.msb_and, BitVec.msb_xor]
  cases a.msb <;> cases b.msb <;> cases (a - b).msb <;> rfl

theorem subFlags_v_iff (a b : Word) :
    (subFlags a b (a - b)).v = true ↔ a.toInt - b.toInt < -2 ^ 31 ∨ 2 ^ 31 ≤ a.toInt - b.toInt := by
  simp [subFlags_v, BitVec.ssubOverflow, or_comm]

theorem subFlags_n_iff (a b : Word) : (subFlags a b (a - b)).n = true ↔ (a - b).toInt < 0 := by
  simp [subFlags, setNZ, signBit_eq_msb, BitVec.msb_eq_toInt]

theorem subFlags_z_iff (a b : Word) : (subFlags a b (a - b)).z = true ↔ a = b := by
  simp only [subFlags, setNZ, decide_eq_true_eq]
  exact sub_eq_zero

theorem subFlags_c_iff (a b : Word) : (subFlags a b (a - b)).c = true ↔ b.toNat ≤ a.toNat := by
  simp [subFlags, setNZ]

/-- After a subtraction `N` and `V` agree exactly when the first operand is at least the second: the wrapped difference
has the wrong sign exactly when the exact one does not fit. -/
theorem subFlags_n_eq_v_iff (a b : Word) :
    (subFlags a b (a - b)).n = (subFlags a b (a - b)).v ↔ b.toInt ≤ a.toInt := by
  have hal := BitVec.two_mul_toInt_lt (x := a)
  have hau := BitVec.le_two_mul_toInt (x := a)
  have hbl := BitVec.two_mul_toInt_lt (x := b)
  have hbu := BitVec.le_two_mul_toInt (x := b)
  rw [Bool.eq_iff_iff, subFlags_n_iff, subFlags_v_iff, BitVec.toInt_sub, Int.bmod_def]
  omega

/-- Settles O7. -/
theorem overflowIsSignedOverflow : Obligations.OverflowIsSignedOverflow := by
  intro a b
  refine ⟨?_, subFlags_v_iff a b⟩
  simp [addFlags_v, BitVec.saddOverflow, or_comm]

/-- Settles O8: every condition is a combination of `Z` and of `N = V`. -/
theorem conditionsAfterCompare : Obligations.ConditionsAfterCompare := by
  rintro _ _ rn op2 s t rfl rfl h
  have ht : t = effect (.cmp .al rn op2) s := by
    rw [exec_condition_holds rfl] at h
    exact (Outcome.next.inj h).symm
  have hflags : t.flags = subFlags (rdreg s rn) (op2val s op2) (rdreg s rn - op2val s op2) := by rw [ht]; rfl
  generalize rdreg s rn = a at hflags
  generalize op2val s op2 = b at hflags
  have hz : t.flags.z = true ↔ a = b := hflags ▸ subFlags_z_iff a b
  have hge : t.flags.n = t.flags.v ↔ b.toInt ≤ a.toInt := hflags ▸ subFlags_n_eq_v_iff a b
  have hc : t.flags.c = true ↔ b.toNat ≤ a.toNat := hflags ▸ subFlags_c_iff a b
  have heq : a = b ↔ a.toInt = b.toInt := BitVec.toInt_inj.symm
  refine ⟨hz, ?_, ?_, ?_, ?_, ?_, hc⟩
  · simp [condHolds, ← hz]
  · simp only [condHolds, Bool.and_eq_true, Bool.not_eq_true', ← Bool.not_eq_true, beq_iff_eq, hz, hge, heq]
    omega
  · simp [condHolds, hge]
  · simp [condHolds, hge]
  · simp only [condHolds, Bool.or_eq_true, bne_iff_ne, ne_eq, hz, hge, heq]
    omega

/-! ### Frames -/

/-- Settles O28: the destination is `rd`, none of the nine is a store, and the flags are as the instruction's kind and
marker say. -/
theorem dataProcessingFrame : Obligations.DataProcessingFrame := by
  intro c f rd rn op2 s t logical shifts i hi h
  obtain ⟨hconfig, hphase, hinput, hprog, hemitted⟩ := exec_keeps h
  have hshape : destReg i = rd ∧ i.marked = f ∧ i.kind ≠ .str ∧ i.kind ≠ .cmp ∧
      (i ∈ shifts ++ logical → i.kind ∉ [Kind.add, .sub, .cmp]) ∧
      (i ∈ logical → i.kind ∉ [Kind.add, .sub, .cmp, .lsl, .lsr]) := by
    simp only [logical, shifts, List.mem_append, List.mem_cons, List.not_mem_nil, or_false] at hi ⊢
    rcases hi with ((rfl | rfl) | rfl | rfl) | rfl | rfl | rfl | rfl | rfl <;>
      simp [destReg, Instr.marked, Instr.kind]
  obtain ⟨hdest, hmarked, hstr, hcmp, hv, hc⟩ := hshape
  exact ⟨fun j hj => exec_rdreg_other h (hdest.symm ▸ hj), fun k => by rw [exec_mem_of_kind_ne_str h hstr],
    fun hf => exec_flags_unmarked h (hmarked.trans hf) hcmp, fun hm => exec_flags_v h (hv hm),
    fun hm => exec_flags_c h (hc hm), hprog, hconfig, hphase, hinput, hemitted⟩

/-- The destination of a record's instruction is the record's `rd`, and only for the kinds that write a register. -/
theorem destReg_instr (r : InstrRecord) :
    destReg r.instr = if r.kind ∈ [Kind.str, .cmp, .b, .nop, .invalid] then none else r.rd := by
  obtain ⟨k, _, c⟩ := r
  cases k with
  | b => cases c <;> rfl
  | _ => rfl

/-- Settles O33: the step is the operation of the record's instruction, and a snapshot. -/
theorem oneWritePerStep : Obligations.OneWritePerStep := by
  intro s t r hrun hfetch hstep
  rw [step, hrun] at hstep
  rcases runStep_next hstep with ⟨hnone, -⟩ | ⟨r', u, hr', hu, rfl⟩
  · exact absurd (hnone.symm.trans hfetch) (by simp)
  obtain rfl : r' = r := Option.some.inj (hr'.symm.trans hfetch)
  refine ⟨fun i hi => ?_, fun k hk => ?_, fun hskip => ?_⟩
  · refine exec_rdreg_other hu ?_
    rw [destReg_instr]
    split
    · simp
    · next hkind => exact hi.resolve_left hkind
  · rw [emitSnapshot_mem]
    rcases exec_mem hu with hmem | ⟨c, f, rd, rn, hinstr, hwin, hmem⟩ <;> rw [hmem]
    obtain ⟨hkind, rfl⟩ := InstrRecord.of_instr_eq_str hinstr
    exact Memory.read_write_other _ _ (hk hkind hwin)
  · have hadv : u = advance s := by
      rcases hskip with hkind | hcond
      · exact exec_of_kind_invalid hu (by rw [InstrRecord.instr_kind, hkind])
      · rw [exec_condition_fails (by rw [InstrRecord.instr_cond, hcond])] at hu
        exact (Outcome.next.inj hu).symm
    rw [hadv]
    exact ⟨rfl, rfl, rfl⟩

/-! ### The carry is not read -/

/-- The condition predicate does not read `C` (R125). -/
theorem condHolds_withCarry (c : Cond) (b : Bool) (s : State) :
    condHolds c (withCarry b s).flags = condHolds c s.flags := by
  cases c <;> rfl

theorem withCarry_withCarry (b b' : Bool) (s : State) : withCarry b (withCarry b' s) = withCarry b s := rfl

theorem advance_withCarry (b : Bool) (s : State) : advance (withCarry b s) = withCarry b (advance s) := rfl

theorem loadWord_withCarry (b : Bool) (s : State) (rd : RegIdx) (addr : Word) :
    loadWord (withCarry b s) rd addr = withCarry b (loadWord s rd addr) := by
  rw [loadWord, loadWord, apply_ite (withCarry b)]
  rfl

theorem storeWord_withCarry (b : Bool) (s : State) (rd : RegIdx) (addr : Word) :
    storeWord (withCarry b s) rd addr = withCarry b (storeWord s rd addr) := by
  rw [storeWord, storeWord, apply_ite (withCarry b)]
  rfl

/-- The operand values, the window and the branch's next `pc` do not depend on `C`; what an instruction offers as new
flags depends on it in `C` at most. -/
theorem effect_withCarry (i : Instr) (b : Bool) (s : State) :
    withCarry false (effect i (withCarry b s)) = withCarry false (effect i s) := by
  cases i with
  | nop | invalid | cmp | b | beq => rfl
  | ldr c f rd rn =>
    change withCarry false (advance (loadWord (withCarry b s) rd (effAddr s rn))) = _
    rw [loadWord_withCarry, advance_withCarry, withCarry_withCarry]
    rfl
  | str c f rd rn =>
    change withCarry false (advance (storeWord (withCarry b s) rd (effAddr s rn))) = _
    rw [storeWord_withCarry, advance_withCarry, withCarry_withCarry]
    rfl
  | add c f | sub c f | and c f | orr c f | eor c f | mov c f | mvn c f | lsl c f | lsr c f => cases f <;> rfl

/-- Settles O34. -/
theorem carryIsNeverRead : Obligations.CarryIsNeverRead := by
  intro i s t b h
  cases hc : condHolds i.cond s.flags with
  | true =>
    rw [exec_condition_holds hc] at h
    cases h
    exact ⟨_, exec_condition_holds (by rw [condHolds_withCarry, hc]), effect_withCarry i b s⟩
  | false =>
    rw [exec_condition_fails hc] at h
    cases h
    exact ⟨_, exec_condition_fails (by rw [condHolds_withCarry, hc]), rfl⟩

/-! ### Records -/

/-- Settles O48. -/
theorem decodedRecordsCanonical : Obligations.DecodedRecordsCanonical := by
  intro cfg line r h
  obtain ⟨hline, rfl⟩ := decode_eq_ok h
  have hcanonical := canonicalRecord_decodeLine cfg line
  have htlabel := decodeLine_tlabel_ok cfg (textOk_of_lineProblem_eq_none hline)
  exact ⟨hcanonical, decodeLine_raw cfg line, decodeLine_target cfg line, InstrRecord.instr_kind _,
    InstrRecord.instr_wellFormed hcanonical htlabel⟩

end Sys2Proof.Machine

namespace Sys2Proof

/-! ### The coded fields of a record -/

theorem Kind.code_le (k : Kind) : k.code ≤ 14 := by cases k <;> decide

theorem Cond.code_le (c : Cond) : c.code ≤ 6 := by cases c <;> decide

@[simp] theorem Kind.ofCode_code (k : Kind) : Kind.ofCode k.code = some k := by cases k <;> rfl

@[simp] theorem Cond.ofCode_code (c : Cond) : Cond.ofCode c.code = some c := by cases c <;> rfl

/-- The four places of a header, each read by its own division (R85). -/
theorem InstrRecord.header_places (r : InstrRecord) :
    r.header % 16 = r.kind.code ∧ r.header / 16 % 8 = r.cond.code ∧
    r.header / 128 % 2 = r.sflag.toNat ∧ r.header / 256 % 2 = r.hasLabel.toNat := by
  have hk := r.kind.code_le
  have hc := r.cond.code_le
  have hs := r.sflag.toNat_le
  have hl := r.hasLabel.toNat_le
  simp only [header]
  omega

/-- A header reads back to its own coded fields, the indicator being forced for a compare (R78). -/
theorem recordOfHeader_header (r : InstrRecord) :
    recordOfHeader r.header = some { InstrRecord.blank [] with
      kind := r.kind, cond := r.cond, sflag := r.sflag || (r.kind == .cmp), hasLabel := r.hasLabel } := by
  obtain ⟨hkind, hcond, hflag, hlabel⟩ := r.header_places
  have hbit : ∀ b : Bool, (b.toNat == 1) = b := by decide
  simp only [recordOfHeader, hkind, hcond, hflag, hlabel, Kind.ofCode_code, Cond.ofCode_code, hbit]

/-- Settles O53. -/
theorem recordCodesReadBack : Obligations.RecordCodesReadBack := by
  refine ⟨fun r hcmp => ⟨_, recordOfHeader_header r, rfl, rfl, ?_, rfl⟩,
    fun r => ⟨r.header_places.1, r.kind.code_le, r.cond.code_le⟩, fun w hw => ?_⟩
  · by_cases hk : r.kind = .cmp
    · simp [hcmp hk]
    · simp [hk]
  · rcases hw with hkind | hcond
    · rw [recordOfHeader, hkind]; rfl
    · rw [recordOfHeader, hcond]
      split <;> simp_all [Cond.ofCode]

end Sys2Proof

end

section
/-! The window over the data memory (R41, R42, R54), and a load after a store to one word (R48, R52). -/

namespace Sys2Proof.Machine

open Sys2Proof Host

/-! ### The addresses of the five words -/

/-- Under R54's constraints the address of a word is its number without reduction: the window does not wrap. -/
theorem toNat_wordAddr {cfg : Config} (hbase : cfg.baseOk) {k : Nat} (hk : k < 5) :
    (cfg.memBase + BitVec.ofNat 32 (4 * k)).toNat = cfg.memBase.toNat + 4 * k := by
  obtain ⟨-, hbound⟩ := (baseOk_iff cfg).mp hbase
  rw [BitVec.toNat_add, BitVec.toNat_ofNat]
  omega

/-- The address of each of the five words passes the window test. -/
theorem inWindow_wordAddr {cfg : Config} (hbase : cfg.baseOk) {k : Nat} (hk : k < 5) :
    inWindow cfg.memBase (cfg.memBase + BitVec.ofNat 32 (4 * k)) = true := by
  rw [inWindow_iff, toNat_wordAddr hbase hk]
  omega

/-- The address of a word selects that word. -/
theorem wordIndex_wordAddr {cfg : Config} (hbase : cfg.baseOk) {k : Nat} (hk : k < 5) :
    wordIndex cfg.memBase (cfg.memBase + BitVec.ofNat 32 (4 * k)) = k := by
  rw [wordIndex, toNat_wordAddr hbase hk, Nat.add_sub_cancel_left, Nat.mul_div_cancel_left k (by decide)]

/-- An in-window address is the address of the word it selects. -/
theorem eq_wordAddr_of_inWindow {cfg : Config} (hbase : cfg.baseOk) {addr : Word}
    (hw : inWindow cfg.memBase addr = true) :
    addr = cfg.memBase + BitVec.ofNat 32 (4 * wordIndex cfg.memBase addr) := by
  obtain ⟨hk, haddr⟩ := inWindow_wordIndex hw
  exact BitVec.eq_of_toNat_eq (haddr.trans (toNat_wordAddr hbase hk).symm)

/-- Settles O36. -/
theorem exactlyFiveAddresses : Obligations.ExactlyFiveAddresses := by
  intro cfg addr hbase
  refine ⟨⟨fun hw => ⟨_, (inWindow_wordIndex hw).1, eq_wordAddr_of_inWindow hbase hw⟩, ?_⟩, ?_⟩
  · rintro ⟨k, hk, rfl⟩
    exact inWindow_wordAddr hbase hk
  · rintro k hk rfl
    exact wordIndex_wordAddr hbase hk

/-- Settles O35: R54's constraints on the platform's base address, which the model takes from the admitted ones. -/
theorem platformBaseAddress : Obligations.PlatformBaseAddress := platformConfig_baseOk

/-! ### Loads and stores inside the window -/

/-- A store in the window whose condition holds writes the selected word (R44, R182). -/
theorem exec_str_inWindow {c : Cond} {s : State} {rn : RegIdx} (f : Bool) (rd : RegIdx)
    (hc : condHolds c s.flags = true) (hw : inWindow s.config.memBase (effAddr s rn) = true) :
    exec (.str c f rd rn) s = .next (advance (memWrite s (effAddr s rn) (rdreg s rd))) := by
  rw [exec_str, gate_holds _ hc, storeWord, if_pos hw]

/-- A load in the window whose condition holds writes the selected word to its destination (R43, R181). -/
theorem exec_ldr_inWindow {c : Cond} {s : State} {rn : RegIdx} (f : Bool) (rd : RegIdx)
    (hc : condHolds c s.flags = true) (hw : inWindow s.config.memBase (effAddr s rn) = true) :
    exec (.ldr c f rd rn) s = .next (advance (wrreg s rd (memRead s (effAddr s rn)))) := by
  rw [exec_ldr, gate_holds _ hc, loadWord, if_pos hw]

/-- Reading the address just written gives the value written (R48). -/
theorem memRead_memWrite_same {s : State} (hm : Memory.wf s.mem) (addr v : Word) :
    memRead (memWrite s addr v) addr = v :=
  Memory.read_write_same hm _ v

/-- Settles O37: the store leaves the state with one word written, and the load reads that word. -/
theorem loadAfterStore : Obligations.LoadAfterStore := by
  intro f f' rd rn rd' rn' s t u hm hw hstr haddr hldr
  rw [exec_str_inWindow f rd rfl hw] at hstr
  obtain rfl := Outcome.next.inj hstr
  rw [exec_ldr_inWindow f' rd' rfl (by rwa [haddr]), haddr] at hldr
  obtain rfl := Outcome.next.inj hldr
  have hread : memRead (advance (memWrite s (effAddr s rn) (rdreg s rd))) (effAddr s rn) = rdreg s rd :=
    memRead_memWrite_same hm _ _
  rw [hread]
  exact ⟨rfl, rfl⟩

end Sys2Proof.Machine

end

section
/-! The texts of the decoder and the encoder: lines of the contract, words, numbers, and operand fields (R60 to R63,
R72 to R75, R82). -/

namespace Sys2Proof

/-! ### Texts that stand in a line of the contract -/

/-- A text without line ends that neither begins nor ends with whitespace: empty, or in the input contract (R60). -/
structure Tidy (t : Text) : Prop where
  noLineEnd : textOk t = true
  first     : ∀ c ∈ t.head?, isWs c = false
  last      : ∀ c ∈ t.getLast?, isWs c = false

/-- The input contract in one phrase: the lines of the contract are the texts that are not empty and tidy. -/
theorem lineProblem_eq_none_iff (line : Text) : lineProblem line = none ↔ line ≠ [] ∧ Tidy line := by
  cases line with
  | nil => simp [lineProblem]
  | cons c cs =>
    have htext : textOk (c :: cs) = true ↔ ¬ (c :: cs).any isLineEnd = true := by simp [textOk]
    have hlast : (∀ d ∈ (c :: cs).getLast?, isWs d = false) ↔ ¬ (c :: cs).getLast?.any isWs = true := by
      cases (c :: cs).getLast? <;> simp
    refine ⟨fun h => ⟨List.cons_ne_nil c cs, ?_⟩, fun ⟨_, h⟩ => ?_⟩
    · simp only [lineProblem] at h
      split_ifs at h with hend hfirst htrail
      exact ⟨htext.mpr hend, by simpa using hfirst, hlast.mpr htrail⟩
    · have hfirst : isWs c = false := h.first c rfl
      simp only [lineProblem, if_neg (htext.mp h.noLineEnd), hfirst, if_neg (hlast.mp h.last), Bool.false_eq_true,
        if_false]

/-- Two tidy texts joined by a character that is no whitespace, or that stands between two words. -/
theorem Tidy.append_cons {s t : Text} {c : Chr} (hs : Tidy s) (ht : Tidy t) (hc : isLineEnd c = false)
    (hedge : isWs c = false ∨ s ≠ [] ∧ t ≠ []) : Tidy (s ++ c :: t) where
  noLineEnd := by
    have hsl : s.all (fun d => !isLineEnd d) = true := hs.noLineEnd
    have htl : t.all (fun d => !isLineEnd d) = true := ht.noLineEnd
    rw [textOk, List.all_append, List.all_cons, hsl, htl, hc]
    rfl
  first := by
    cases s with
    | nil => simpa using hedge
    | cons d s => simpa using hs.first
  last := by
    cases t with
    | nil => simpa using hedge
    | cons d t => simpa [List.getLast?_cons_cons] using ht.last

/-- Trimming leaves a text as it is exactly when no whitespace stands at either end. -/
theorem trimWs_eq_self_iff (t : Text) :
    trimWs t = t ↔ (∀ c ∈ t.head?, isWs c = false) ∧ ∀ c ∈ t.getLast?, isWs c = false := by
  have hfirst : t.dropWhile isWs = t ↔ ∀ c ∈ t.head?, isWs c = false := by
    cases t <;> simp [List.dropWhile_eq_self_iff]
  have hlast : t.rdropWhile isWs = t ↔ ∀ c ∈ t.getLast?, isWs c = false := by
    rw [List.rdropWhile_eq_self_iff]
    cases t <;> simp [List.getLast?_eq_some_getLast]
  rw [← hfirst, ← hlast, trimWs_eq_rdropWhile]
  refine ⟨fun h => ?_, fun ⟨hd, hr⟩ => by rw [hd, hr]⟩
  have hle : t.length ≤ (t.dropWhile isWs).length := by
    conv_lhs => rw [← h]
    exact (List.rdropWhile_prefix ..).length_le
  have hd : t.dropWhile isWs = t := (List.dropWhile_suffix isWs).eq_of_length_le hle
  exact ⟨hd, by rwa [hd] at h⟩

/-- An operand field as the tokenizer leaves it is a tidy text without a comma (R72). -/
theorem operandNameOk_iff (t : Text) : operandNameOk t = true ↔ Tidy t ∧ ch ',' ∉ t := by
  have hcomma : t.all (fun c => c != ch ',') = true ↔ ch ',' ∉ t := by
    simp only [List.all_eq_true, bne_iff_ne]
    exact ⟨fun h hm => h _ hm rfl, fun h c hc hcc => h (hcc ▸ hc)⟩
  simp only [operandNameOk, Bool.and_eq_true, beq_iff_eq, trimWs_eq_self_iff, hcomma]
  exact ⟨fun ⟨⟨ht, hc⟩, hf, hl⟩ => ⟨⟨ht, hf, hl⟩, hc⟩, fun ⟨⟨ht, hf, hl⟩, hc⟩ => ⟨⟨ht, hc⟩, hf, hl⟩⟩

/-- A character that may stand anywhere in a line: no whitespace, no line end. -/
def isWordChr (c : Chr) : Bool := !isWs c && !isLineEnd c

theorem tidy_of_all_isWordChr {t : Text} (h : t.all isWordChr = true) : Tidy t := by
  have hall : ∀ c ∈ t, isWs c = false ∧ isLineEnd c = false := by simpa [isWordChr] using h
  exact ⟨by simpa [textOk] using fun c hc => (hall c hc).2, fun c hc => (hall c (List.mem_of_mem_head? hc)).1,
    fun c hc => (hall c (List.mem_of_mem_getLast? hc)).1⟩

/-! ### A first word and the rest -/

/-- A word and the rest of a line after it, as the encoder writes them: one space, and none before nothing (R62). -/
def wordLine (w rest : Text) : Text := if rest = [] then w else w ++ ch ' ' :: rest

theorem wordLine_ne_nil {w : Text} (hw : w ≠ []) (rest : Text) : wordLine w rest ≠ [] := by
  unfold wordLine
  split <;> simp [hw]

theorem Tidy.wordLine {w rest : Text} (hw0 : w ≠ []) (hw : Tidy w) (hrest : Tidy rest) : Tidy (wordLine w rest) := by
  unfold Sys2Proof.wordLine
  split
  · exact hw
  · next hne => exact hw.append_cons hrest rfl (.inr ⟨hw0, hne⟩)

/-- A word is split off whole, up to the whitespace after it, which is dropped (R63). -/
theorem splitFirstWord_append {w rest : Text} (hw0 : w ≠ []) (hw : w.all isWordChr = true)
    (hrest : ∀ c ∈ rest.head?, isWs c = true) : splitFirstWord (w ++ rest) = (w, rest.dropWhile isWs) := by
  have hword : ∀ d ∈ w, (!isWs d) = true := by
    simp only [isWordChr, List.all_eq_true, Bool.and_eq_true] at hw
    exact fun d hd => (hw d hd).1
  have hlead : (w ++ rest).dropWhile isWs = w ++ rest := by
    cases w with
    | nil => exact absurd rfl hw0
    | cons d w => exact List.dropWhile_cons_of_neg (by simpa using hword d (by simp))
  have hstop : rest.takeWhile (fun c => !isWs c) = [] ∧ rest.dropWhile (fun c => !isWs c) = rest := by
    cases rest with
    | nil => exact ⟨rfl, rfl⟩
    | cons c rest => simp [hrest c rfl]
  rw [splitFirstWord]
  simp only [hlead, List.takeWhile_append_of_pos hword, List.dropWhile_append_of_pos hword, hstop, List.append_nil]

/-- A line written as a word and a rest splits into the two. -/
theorem splitFirstWord_wordLine {w rest : Text} (hw0 : w ≠ []) (hw : w.all isWordChr = true) (hrest : Tidy rest) :
    splitFirstWord (wordLine w rest) = (w, rest) := by
  have hsplit := fun r hr => splitFirstWord_append (rest := r) hw0 hw hr
  unfold wordLine
  split
  · next hnil => simpa [hnil] using hsplit [] (by simp)
  · next hne =>
    obtain ⟨d, ds, rfl⟩ := List.exists_cons_of_ne_nil hne
    have hd : isWs d = false := hrest.first d rfl
    rw [hsplit _ (by simp [isWs, ch]), List.dropWhile_cons_of_pos rfl, List.dropWhile_cons_of_neg (by simp [hd])]

/-! ### Numbers -/

/-- The character of a decimal digit, as `decDigits` writes it. -/
theorem digitChr_spec (n : Nat) :
    isDigit (BitVec.ofNat 8 (0x30 + n % 10)) = true ∧ hexVal (BitVec.ofNat 8 (0x30 + n % 10)) = n % 10 := by
  have hdigits : ∀ d < 10, isDigit (BitVec.ofNat 8 (0x30 + d)) = true ∧ hexVal (BitVec.ofNat 8 (0x30 + d)) = d := by
    decide
  exact hdigits _ (Nat.mod_lt n (by decide))

theorem decDigitsFrom_all_isDigit (fuel n : Nat) {acc : Text} (hacc : acc.all isDigit = true) :
    (decDigitsFrom fuel n acc).all isDigit = true := by
  induction fuel generalizing n acc with
  | zero => exact hacc
  | succ fuel ih =>
    have hacc' : (BitVec.ofNat 8 (0x30 + n % 10) :: acc).all isDigit = true := by
      rw [List.all_cons, hacc, (digitChr_spec n).1]; rfl
    rw [decDigitsFrom]
    split
    · exact hacc'
    · exact ih _ hacc'

theorem decDigitsFrom_ne_nil (fuel n : Nat) {acc : Text} (hacc : acc ≠ []) : decDigitsFrom fuel n acc ≠ [] := by
  induction fuel generalizing n acc with
  | zero => exact hacc
  | succ fuel ih =>
    rw [decDigitsFrom]
    split
    · exact List.cons_ne_nil _ _
    · exact ih _ (List.cons_ne_nil _ _)

/-- Reading on from the digits written before `acc` is reading `acc` on from the number written. -/
theorem foldl_decDigitsFrom (fuel n : Nat) (acc : Text) (hn : n < 10 ^ fuel) :
    (decDigitsFrom fuel n acc).foldl (fun n c => 10 * n + hexVal c) 0 = acc.foldl (fun n c => 10 * n + hexVal c) n := by
  induction fuel generalizing n acc with
  | zero =>
    obtain rfl : n = 0 := by simpa using hn
    rfl
  | succ fuel ih =>
    have hdigit := (digitChr_spec n).2
    rw [decDigitsFrom]
    split
    · rw [List.foldl_cons, hdigit]
      congr 1
      omega
    · rw [ih _ _ (by rw [Nat.pow_succ] at hn; omega), List.foldl_cons, hdigit, Nat.div_add_mod]

theorem decDigits_all_isDigit (n : Nat) : (decDigits n).all isDigit = true :=
  decDigitsFrom_all_isDigit _ n rfl

theorem decDigits_ne_nil (n : Nat) : decDigits n ≠ [] := by
  rw [decDigits, decDigitsFrom]
  split
  · exact List.cons_ne_nil _ _
  · exact decDigitsFrom_ne_nil _ _ (List.cons_ne_nil _ _)

/-- The digits written for a number read back to it. -/
@[simp] theorem digitsValue_decDigits (n : Nat) : digitsValue 10 (decDigits n) = n := by
  have hn : n < 10 ^ (n.log2 + 1) := Nat.lt_of_lt_of_le Nat.lt_log2_self (Nat.pow_le_pow_left (by decide) _)
  exact foldl_decDigitsFrom _ n [] hn

/-- A run of decimal digits is a decimal number: no digit is the `x` of a hexadecimal number (R74). -/
theorem parseNum_of_digits {t : Text} (h0 : t ≠ []) (h : t.all isDigit = true) :
    parseNum t = some (BitVec.ofNat _ (digitsValue 10 t)) := by
  have hx : t.take 2 ≠ hexPrefix := fun heq => by
    have hmem : ch 'x' ∈ t := List.mem_of_mem_take (i := 2) (heq ▸ by decide)
    exact absurd (List.all_eq_true.mp h _ hmem) (by decide)
  rw [parseNum, if_neg (fun ⟨_, hhex, _⟩ => hx hhex), if_pos ⟨h0, h⟩]

/-! ### Registers and Operand-2 -/

theorem stripBrackets_eq_self {t : Text} (h : t.head? ≠ some (ch '[')) : stripBrackets t = t :=
  if_neg fun ⟨_, hhead, _⟩ => h hhead

theorem stripBrackets_bracketed (t : Text) : stripBrackets (ch '[' :: (t ++ [ch ']'])) = t := by
  have hlast : (ch '[' :: (t ++ [ch ']'])).getLast? = some (ch ']') :=
    List.getLast?_eq_some_iff.mpr ⟨ch '[' :: t, rfl⟩
  rw [stripBrackets, if_pos ⟨by simp, rfl, hlast⟩, List.drop_one, List.tail_cons, List.dropLast_concat]

/-- A pair of brackets around a token without one is not seen by the register parser (R73). -/
theorem parseReg_bracketed {t : Text} (h : t.head? ≠ some (ch '[')) :
    parseReg (some (ch '[' :: (t ++ [ch ']']))) = parseReg (some t) := by
  rw [parseReg, parseReg, stripBrackets_bracketed, stripBrackets_eq_self h]

/-- A register token reads as the index written in it. -/
theorem parseReg_decDigits (i : Nat) : parseReg (some (regMark :: decDigits i)) = some i := by
  have hne : (decDigits i).isEmpty = false := by simpa using decDigits_ne_nil i
  rw [parseReg, stripBrackets_eq_self (by simp [regMark, ch])]
  simp [hne, decDigits_all_isDigit, show isRegLetter regMark = true from by decide]

theorem parseReg_regField (r : RegIdx) : parseReg (some (regField r)) = r := by
  cases r with
  | none => rfl
  | some i => exact parseReg_decDigits i

theorem parseReg_addrField (r : RegIdx) : parseReg (some (addrField r)) = r := by
  cases r with
  | none => rfl
  | some i =>
    exact (parseReg_bracketed (t := regMark :: decDigits i) (by simp [regMark, ch])).trans (parseReg_decDigits i)

/-- An Operand-2 field reads as the operand it was written for (R75). -/
theorem parseOp2_op2Field (o : Op2) : parseOp2 (some (op2Field o)) = o := by
  cases o with
  | unset => rfl
  | imm v =>
    rw [op2Field, parseOp2, if_pos rfl, parseNum_of_digits (decDigits_ne_nil _) (decDigits_all_isDigit _),
      digitsValue_decDigits, BitVec.ofNat_toNat, BitVec.setWidth_eq, immOrUnset]
  | reg i => rw [op2Field, parseOp2, if_neg (by decide), if_neg (by decide), parseReg_decDigits]

/-! ### Operand fields -/

/-- A text of digits, register letters, brackets and immediate marks is an operand field. -/
def isFieldChr (c : Chr) : Bool := isWordChr c && c != ch ','

theorem operandNameOk_of_all_isFieldChr {t : Text} (h : t.all isFieldChr = true) : operandNameOk t = true := by
  simp only [isFieldChr, List.all_eq_true, Bool.and_eq_true, bne_iff_ne] at h
  exact (operandNameOk_iff t).mpr
    ⟨tidy_of_all_isWordChr (List.all_eq_true.mpr fun c hc => (h c hc).1), fun hm => (h _ hm).2 rfl⟩

theorem isFieldChr_of_isDigit {c : Chr} (h : isDigit c = true) : isFieldChr c = true := by
  revert c
  decide

theorem decDigits_all_isFieldChr (n : Nat) : (decDigits n).all isFieldChr = true := by
  have h := List.all_eq_true.mp (decDigits_all_isDigit n)
  exact List.all_eq_true.mpr fun c hc => isFieldChr_of_isDigit (h c hc)

theorem regField_ok (r : RegIdx) : operandNameOk (regField r) = true := by
  cases r with
  | none => rfl
  | some i =>
    refine operandNameOk_of_all_isFieldChr ?_
    rw [regField, List.all_cons, decDigits_all_isFieldChr]
    decide

theorem addrField_ok (r : RegIdx) : operandNameOk (addrField r) = true := by
  cases r with
  | none => rfl
  | some i =>
    refine operandNameOk_of_all_isFieldChr ?_
    rw [addrField, List.all_cons, List.all_cons, List.all_append, decDigits_all_isFieldChr]
    decide

theorem op2Field_ok (o : Op2) : operandNameOk (op2Field o) = true := by
  cases o with
  | unset => rfl
  | imm v =>
    refine operandNameOk_of_all_isFieldChr ?_
    rw [op2Field, List.all_cons, decDigits_all_isFieldChr]
    decide
  | reg i => exact regField_ok (some i)

/-! ### Operand lists -/

theorem splitCommas_of_notMem {f : Text} (hf : ch ',' ∉ f) : splitCommas f = [f] := by
  induction f with
  | nil => rfl
  | cons c f ih =>
    rw [List.mem_cons, not_or] at hf
    rw [splitCommas, if_neg (Ne.symm hf.1), ih hf.2]

theorem splitCommas_append {f : Text} (hf : ch ',' ∉ f) (t : Text) :
    splitCommas (f ++ ch ',' :: t) = f :: splitCommas t := by
  induction f with
  | nil => rfl
  | cons c f ih =>
    rw [List.mem_cons, not_or] at hf
    rw [List.cons_append, splitCommas, if_neg (Ne.symm hf.1), ih hf.2]

/-- Fields joined by commas are the fields between the commas (R72). -/
theorem splitCommas_joinCommas {fs : List Text} (h0 : fs ≠ []) (h : ∀ f ∈ fs, operandNameOk f = true) :
    splitCommas (joinCommas fs) = fs := by
  have hcomma : ∀ f ∈ fs, ch ',' ∉ f := fun f hf => ((operandNameOk_iff f).mp (h f hf)).2
  clear h
  induction fs with
  | nil => exact absurd rfl h0
  | cons f fs ih =>
    cases fs with
    | nil => exact splitCommas_of_notMem (hcomma f (by simp))
    | cons g gs =>
      rw [joinCommas, splitCommas_append (hcomma f (by simp)),
        ih (List.cons_ne_nil _ _) fun d hd => hcomma d (List.mem_cons_of_mem f hd)]
      simp

theorem tokenize_eq (s : Text) : tokenize s = dropTrailingEmpty ((splitCommas s).map trimWs) := by
  unfold tokenize
  split
  · next h => subst h; rfl
  · rfl

/-- The tokens of fields joined by commas are the fields, without the empty ones at the end (R72). -/
theorem tokenize_joinCommas {fs : List Text} (h0 : fs ≠ []) (h : ∀ f ∈ fs, operandNameOk f = true) :
    tokenize (joinCommas fs) = dropTrailingEmpty fs := by
  have htrim : ∀ f ∈ fs, trimWs f = f := fun f hf => by
    have hok := h f hf
    simp only [operandNameOk, Bool.and_eq_true, beq_iff_eq] at hok
    exact hok.2
  rw [tokenize_eq, splitCommas_joinCommas h0 h, List.map_congr_left htrim, List.map_id']

/-- Dropping empty fields at the end is not seen by a parser that reads an empty field as an absent one (R72, R82). -/
theorem parse_dropTrailingEmpty {α : Type} (p : Option Text → α) (hp : p (some []) = p none) (fs : List Text)
    (i : Nat) : p (dropTrailingEmpty fs)[i]? = p fs[i]? := by
  change p (fs.rdropWhile List.isEmpty)[i]? = _
  induction fs using List.reverseRecOn with
  | nil => rfl
  | append_singleton fs f ih =>
    rw [List.rdropWhile_concat]
    split
    · next hf =>
      obtain rfl : f = [] := by simpa using hf
      rw [ih]
      rcases Nat.lt_trichotomy i fs.length with hi | rfl | hi
      · rw [List.getElem?_append_left hi]
      · simp [hp]
      · rw [List.getElem?_eq_none (by omega), List.getElem?_eq_none (by simp; omega)]
    · rfl

end Sys2Proof

end

section
/-! The decoder: mnemonics (R65 to R68), what operand interpretation fills (R76 to R82), the record of a line (R83), the
two settings of `LABEL_FIELDS` (R93), and the input contract (R60). -/

namespace Sys2Proof

open Machine

/-! ### Mnemonics (R65 to R68) -/

theorem stripMark_unmarked {t : Text} (h : t.getLast? ≠ some flagMark) : stripMark t = (t, false) :=
  if_neg h

theorem stripMark_marked (t : Text) : stripMark (t ++ [flagMark]) = (t, true) := by
  rw [stripMark, if_pos List.getLast?_concat, List.dropLast_concat]

theorem stripCond_no_suffix {t : Text} (h : ∀ sc ∈ condSuffixes, ¬ sc.1 <:+ t) : stripCond t = (t, .al) := by
  have hlookup : condSuffixes.lookup (t.drop (t.length - 2)) = none :=
    List.lookup_eq_none_iff.mpr fun sc hsc => bne_iff_ne.mpr fun heq => h sc hsc (heq ▸ List.drop_suffix ..)
  simp only [stripCond, hlookup, ite_self]

/-- The suffix a condition is written with reads as that condition. -/
theorem condSuffix_spec {c : Cond} (hc : c ≠ .al) :
    (condSuffix c).length = 2 ∧ condSuffixes.lookup (condSuffix c) = some c ∧ (condSuffix c).getLast? ≠ none ∧
      (condSuffix c).getLast? ≠ some flagMark := by
  cases c with
  | al => exact absurd rfl hc
  | _ => decide

theorem stripCond_suffix (t : Text) {c : Cond} (hc : c ≠ .al) : stripCond (t ++ condSuffix c) = (t, c) := by
  obtain ⟨hlen, hlookup, -, -⟩ := condSuffix_spec hc
  have hsub : (t ++ condSuffix c).length - 2 = t.length := by rw [List.length_append, hlen]; rfl
  simp only [stripCond, hsub, List.drop_left, List.take_left, hlookup]
  rw [if_pos (by rw [List.length_append, hlen]; omega)]

/-- In a table with distinct keys every key has its own kind. -/
theorem lookupBase_of_mem {tbl : List (Text × Kind)} (hkeys : (tbl.map Prod.fst).Nodup) {e : Text × Kind}
    (he : e ∈ tbl) : lookupBase tbl e.1 = e.2 := by
  obtain ⟨before, after, rfl⟩ := List.append_of_mem he
  have hfirst : ∀ p ∈ before, (e.1 != p.1) = true := fun p hp => bne_iff_ne.mpr fun heq => by
    rw [List.map_append, List.nodup_append] at hkeys
    obtain ⟨-, -, hdisjoint⟩ := hkeys
    exact hdisjoint p.1 (List.mem_map_of_mem hp) e.1 (List.mem_map_of_mem List.mem_cons_self) heq.symm
  have hlookup : (before ++ e :: after).lookup e.1 = some e.2 :=
    List.lookup_eq_some_iff.mpr ⟨before, after, rfl, hfirst⟩
  rw [lookupBase, hlookup]
  rfl

/-- A base name that ends in neither a marker nor a suffix is found under every suffix and marker. -/
theorem decodeMnemonic_mnemonicToken (tbl : List (Text × Kind)) {base : Text} (hmark : base.getLast? ≠ some flagMark)
    (hsuffix : ∀ sc ∈ condSuffixes, ¬ sc.1 <:+ base) (c : Cond) (f : Bool) :
    decodeMnemonic tbl (mnemonicToken base c f) = { kind := lookupBase tbl base, cond := c, sflag := f } := by
  have hcond : stripCond (base ++ condSuffix c) = (base, c) := by
    by_cases hc : c = .al
    · subst hc
      exact (congrArg stripCond (List.append_nil base)).trans (stripCond_no_suffix hsuffix)
    · exact stripCond_suffix base hc
  have hstrip : stripMark (mnemonicToken base c f) = (base ++ condSuffix c, f) := by
    cases f with
    | true => exact stripMark_marked _
    | false =>
      refine (congrArg stripMark (List.append_nil _)).trans (stripMark_unmarked ?_)
      by_cases hc : c = .al
      · subst hc
        exact (congrArg List.getLast? (List.append_nil base)).trans_ne hmark
      · obtain ⟨-, -, hsome, hne⟩ := condSuffix_spec hc
        obtain ⟨d, hd⟩ := Option.ne_none_iff_exists'.mp hsome
        rw [hd] at hne
        rw [List.getLast?_append, hd]
        exact hne
  simp only [decodeMnemonic, hstrip, hcond]

/-- A word that ends in a colon is no mnemonic of a table none of whose keys does. -/
theorem decodeMnemonic_colon {tbl : List (Text × Kind)} (htbl : ∀ e ∈ tbl, e.1.getLast? ≠ some (ch ':')) (l : Text) :
    (decodeMnemonic tbl (l ++ [ch ':'])).kind = .invalid := by
  have hlast : (l ++ [ch ':']).getLast? = some (ch ':') := List.getLast?_concat
  have hsuffix : ∀ sc ∈ condSuffixes, ¬ sc.1 <:+ l ++ [ch ':'] := by
    rintro sc hsc ⟨s, hs⟩
    have hend : ∀ sc ∈ condSuffixes, ∀ s : Text, (sc.1.getLast?.or s.getLast?) ≠ some (ch ':') := by
      simp [condSuffixes, ascii, ch]
    exact hend sc hsc s (by rw [← List.getLast?_append, hs, hlast])
  have hlookup : tbl.lookup (l ++ [ch ':']) = none :=
    List.lookup_eq_none_iff.mpr fun e he => bne_iff_ne.mpr fun heq => htbl e he (heq ▸ hlast)
  simp only [decodeMnemonic, stripMark_unmarked (t := l ++ [ch ':']) (by rw [hlast]; decide),
    stripCond_no_suffix hsuffix, lookupBase, hlookup, Option.getD_none]

/-! ### What operand interpretation fills (R76 to R82, R93) -/

section
variable (lf : LabelFields) (m : Mnemonic) (ops : Text) (r : InstrRecord)

@[simp] theorem setTargetLabel_hasLabel (t : Text) : (setTargetLabel lf t r).hasLabel = r.hasLabel := by
  cases lf <;> rfl

theorem fillOperands_branch_absent {c : Cond} {f : Bool} (h : (tokenize ops)[0]? = none) :
    fillOperands lf ⟨.b, c, f⟩ ops r = { r with kind := .b, cond := c, sflag := f } := by
  simp [fillOperands, h]

theorem fillOperands_branch_present {c : Cond} {f : Bool} {t : Text} (h : (tokenize ops)[0]? = some t) :
    fillOperands lf ⟨.b, c, f⟩ ops r = setTargetLabel lf t { r with kind := .b, cond := c, sflag := f } := by
  simp [fillOperands, h]

/-- Operand interpretation writes the mnemonic's fields, and does not write whether a label is declared. -/
theorem fillOperands_header :
    (fillOperands lf m ops r).kind = m.kind ∧ (fillOperands lf m ops r).cond = m.cond ∧
    (fillOperands lf m ops r).sflag = (m.sflag || m.kind == .cmp) ∧
    (fillOperands lf m ops r).hasLabel = r.hasLabel := by
  obtain ⟨k, c, f⟩ := m
  cases k with
  | b =>
    cases h : (tokenize ops)[0]? with
    | none => simp [fillOperands_branch_absent lf ops r h]
    | some t => cases lf <;> simp [fillOperands_branch_present _ ops r h, setTargetLabel]
  | _ => simp [fillOperands]

@[simp] theorem fillOperands_kind : (fillOperands lf m ops r).kind = m.kind := (fillOperands_header lf m ops r).1

@[simp] theorem fillOperands_hasLabel : (fillOperands lf m ops r).hasLabel = r.hasLabel :=
  (fillOperands_header lf m ops r).2.2.2

/-- Only the operand of a branch can write the label field, and only under `LABEL_FIELDS = shared` (R93). -/
theorem fillOperands_label (h : m.kind ≠ .b ∨ lf = .separate ∨ tokenize ops = []) :
    (fillOperands lf m ops r).label = r.label := by
  obtain ⟨k, c, f⟩ := m
  cases k with
  | b =>
    rcases h with hk | rfl | hops
    · exact absurd rfl hk
    · cases h : (tokenize ops)[0]? with
      | none => rw [fillOperands_branch_absent _ ops r h]
      | some t => rw [fillOperands_branch_present _ ops r h]; rfl
    · rw [fillOperands_branch_absent lf ops r (by rw [hops]; rfl)]
  | _ => rfl

/-- Under `LABEL_FIELDS = shared` the operand of a branch takes the label field (R93, D8). -/
theorem fillOperands_label_shared (hk : m.kind = .b) (hops : tokenize ops ≠ []) :
    (fillOperands .shared m ops r).label = (tokenize ops)[0]? := by
  obtain ⟨k, c, f⟩ := m
  subst hk
  cases h : (tokenize ops)[0]? with
  | none => exact absurd (by simpa using h) hops
  | some t => rw [fillOperands_branch_present _ ops r h]; rfl

/-- The register fields and Operand-2 of a branch keep their defaults (R80). -/
theorem fillOperands_branch_operands (hk : m.kind = .b) :
    (fillOperands lf m ops r).rd = r.rd ∧ (fillOperands lf m ops r).rn = r.rn ∧
    (fillOperands lf m ops r).op2 = r.op2 := by
  obtain ⟨k, c, f⟩ := m
  subst hk
  cases h : (tokenize ops)[0]? with
  | none => rw [fillOperands_branch_absent lf ops r h]; exact ⟨rfl, rfl, rfl⟩
  | some t => rw [fillOperands_branch_present lf ops r h]; cases lf <;> exact ⟨rfl, rfl, rfl⟩

variable {r}

/-- The target label a branch notes is its first operand, whatever the setting of `LABEL_FIELDS` is. -/
theorem fillOperands_branch_tlabel (hk : m.kind = .b) (hr : r.tlabel = none) :
    (fillOperands lf m ops r).tlabel = (tokenize ops)[0]? := by
  obtain ⟨k, c, f⟩ := m
  subst hk
  cases h : (tokenize ops)[0]? with
  | none => rw [fillOperands_branch_absent lf ops r h]; exact hr
  | some t => rw [fillOperands_branch_present lf ops r h]; exact setTargetLabel_tlabel ..

/-- A branch's target label is its first operand, under both settings of `LABEL_FIELDS` (R80, R93, D29). -/
theorem targetLabel_fillOperands (hk : m.kind = .b) (hr : r.tlabel = none) :
    targetLabel lf (fillOperands lf m ops r) = (tokenize ops)[0]? := by
  have htlabel := fillOperands_branch_tlabel lf m ops hk hr
  cases lf with
  | separate => exact htlabel
  | shared =>
    cases h : (tokenize ops)[0]? with
    | none => simp only [targetLabel, htlabel, h]
    | some t =>
      have hne : tokenize ops ≠ [] := fun h0 => by simp [h0] at h
      simp only [targetLabel, htlabel, h, fillOperands_label_shared m ops r hk hne]

/-- The instruction of a branch record is read off its mnemonic and its first operand. -/
theorem instr_fillOperands_branch {c : Cond} {f : Bool} (hr : r.tlabel = none) (htarget : r.target = none) :
    (fillOperands lf ⟨.b, c, f⟩ ops r).instr =
      if c = .eq then .beq f (tokenize ops)[0]? none else .b c f (tokenize ops)[0]? none := by
  obtain ⟨hkind, hcond, hsflag, -⟩ := fillOperands_header lf ⟨.b, c, f⟩ ops r
  have hflag : (fillOperands lf ⟨.b, c, f⟩ ops r).sflag = f := by rw [hsflag]; exact Bool.or_false f
  simp only [InstrRecord.instr, hkind, hcond, hflag, fillOperands_target, htarget,
    fillOperands_branch_tlabel lf ⟨.b, c, f⟩ ops rfl hr]

end

/-! ### The record of a line, case by case (R83) -/

/-- The label a line declares: its first word, where that is no mnemonic (R69, R70). -/
def declaredLabel (tbl : List (Text × Kind)) (line : Text) : Option Text :=
  if (decodeMnemonic tbl (splitFirstWord line).1).kind = .invalid then some (labelText (splitFirstWord line).1)
  else none

theorem declaredLabel_isSome (tbl : List (Text × Kind)) (line : Text) :
    (declaredLabel tbl line).isSome = true ↔ (decodeMnemonic tbl (splitFirstWord line).1).kind = .invalid := by
  unfold declaredLabel
  split <;> simp_all

theorem declaredLabel_eq_some {tbl : List (Text × Kind)} {line : Text} (h : (declaredLabel tbl line).isSome = true) :
    declaredLabel tbl line = some (labelText (splitFirstWord line).1) :=
  if_pos ((declaredLabel_isSome tbl line).mp h)

/-- Where the mnemonic and the operand text of an instruction line stand: at its beginning, or after a first word
that is no mnemonic. -/
def instrAt (tbl : List (Text × Kind)) (line w opText : Text) : Prop :=
  splitFirstWord line = (w, opText) ∨
    ((decodeMnemonic tbl (splitFirstWord line).1).kind = .invalid ∧ (splitFirstWord line).2 ≠ [] ∧
      splitFirstWord (splitFirstWord line).2 = (w, opText))

/-- A line without a mnemonic as first or second word (R69, R71). -/
def isLabelOnly (tbl : List (Text × Kind)) (line : Text) : Prop :=
  (decodeMnemonic tbl (splitFirstWord line).1).kind = .invalid ∧
    ((splitFirstWord line).2 ≠ [] →
      (decodeMnemonic tbl (splitFirstWord (splitFirstWord line).2).1).kind = .invalid)

/-- The record of a label-only line declares its first word. -/
theorem decodeLine_labelOnly {cfg : Config} {line : Text} (h : isLabelOnly cfg.mnemonicTable line) :
    decodeLine cfg line = lineRecord line (some (labelText (splitFirstWord line).1)) := by
  obtain ⟨hfirst, hsecond⟩ := h
  by_cases hrest : (splitFirstWord line).2 = []
  · simp only [decodeLine, hfirst, hrest, ne_eq, not_true_eq_false, if_false, if_true]
    rfl
  · simp only [decodeLine, hfirst, hsecond hrest, if_neg hrest, ne_eq, not_true_eq_false, if_false, if_true]
    rfl

/-- An instruction line, bare or labelled: the operands are read into the record with the declared label. -/
theorem decodeLine_instr {cfg : Config} {line w opText : Text} {m : Mnemonic}
    (hat : instrAt cfg.mnemonicTable line w opText) (hm : decodeMnemonic cfg.mnemonicTable w = m)
    (hk : m.kind ≠ .invalid) :
    decodeLine cfg line =
      fillOperands cfg.labelFields m opText (lineRecord line (declaredLabel cfg.mnemonicTable line)) := by
  rcases hat with hsplit | ⟨hfirst, hrest, hsplit⟩
  · simp only [declaredLabel, decodeLine, hsplit, hm, if_pos hk, if_neg hk]
    rfl
  · simp only [declaredLabel, decodeLine, hfirst, hsplit, hm, if_neg hk, if_neg hrest, ne_eq, not_true_eq_false,
      if_false, if_true]
    rfl

/-- Every line is of one of the two forms, and which one depends on the mnemonic table only. -/
theorem line_cases (tbl : List (Text × Kind)) (line : Text) :
    isLabelOnly tbl line ∨ ∃ w opText, instrAt tbl line w opText ∧ (decodeMnemonic tbl w).kind ≠ .invalid := by
  by_cases hfirst : (decodeMnemonic tbl (splitFirstWord line).1).kind = .invalid
  · by_cases hsecond : (splitFirstWord line).2 ≠ [] →
        (decodeMnemonic tbl (splitFirstWord (splitFirstWord line).2).1).kind = .invalid
    · exact .inl ⟨hfirst, hsecond⟩
    · obtain ⟨hrest, hk⟩ := Classical.not_imp.mp hsecond
      exact .inr ⟨_, _, .inr ⟨hfirst, hrest, rfl⟩, hk⟩
  · exact .inr ⟨_, _, .inl rfl, hfirst⟩

/-! ### What lines decode to -/

/-- Settles O46. -/
theorem defaultTableReachable : Obligations.DefaultTableReachable := by
  unfold Obligations.DefaultTableReachable tableOk
  decide

/-- Settles O45. -/
theorem everySpellingDecodes : Obligations.EverySpellingDecodes := by
  intro tbl e c f ⟨hkeys, hdistinct⟩ he
  obtain ⟨hmark, hsuffix, -⟩ := hkeys e he
  rw [decodeMnemonic_mnemonicToken tbl hmark hsuffix, lookupBase_of_mem hdistinct he]

/-- Settles O47. -/
theorem unrecognisedLineIsLabelOnly : Obligations.UnrecognisedLineIsLabelOnly :=
  fun _ _ hfirst hsecond => decodeLine_labelOnly ⟨hfirst, hsecond⟩

/-- Settles O50. -/
theorem registerBracketsOptional : Obligations.RegisterBracketsOptional := fun _ h => parseReg_bracketed h

/-- Settles O44: the record is `fillOperands` of the line's mnemonic and operand text, read field by field. -/
theorem operandFieldsByKind : Obligations.OperandFieldsByKind := by
  intro cfg line w opText k c f hat hm hk ops r
  have hr : r = fillOperands cfg.labelFields ⟨k, c, f⟩ opText
      (lineRecord line (declaredLabel cfg.mnemonicTable line)) := decodeLine_instr hat hm hk
  have hraw : r.raw = line := decodeLine_raw cfg line
  have htarget : r.target = none := decodeLine_target cfg line
  obtain ⟨hkind, hcond, hsflag, hlabel⟩ := hr ▸ fillOperands_header cfg.labelFields ⟨k, c, f⟩ opText
    (lineRecord line (declaredLabel cfg.mnemonicTable line))
  have hkeep : (k ≠ .b ∨ cfg.labelFields = .separate ∨ ops = []) → r.hasLabel = true →
      r.label = some (labelText (splitFirstWord line).1) := fun h hl => by
    rw [hr, fillOperands_label _ _ _ _ h]
    exact declaredLabel_eq_some (hlabel.symm.trans hl)
  refine ⟨hkind, hcond, hraw, htarget, hsflag, ?_, ?_, ?_, ?_, ?_, ?_, fun hb => hkeep (.inl hb), ?_,
    fun _ hl h => hkeep (.inr h) hl, ?_⟩
  · rw [hlabel]
    exact declaredLabel_isSome _ _
  · rintro (rfl | rfl) <;> rw [hr] <;> exact ⟨rfl, rfl, rfl⟩
  · intro hmem
    simp only [List.mem_cons, List.not_mem_nil, or_false] at hmem
    rcases hmem with rfl | rfl | rfl | rfl | rfl | rfl | rfl <;> rw [hr] <;> exact ⟨rfl, rfl, rfl⟩
  · rintro rfl
    rw [hr]
    exact ⟨rfl, rfl, rfl⟩
  · rintro (rfl | rfl) <;> rw [hr] <;> exact ⟨rfl, rfl, rfl⟩
  · rintro (rfl | rfl) <;> rw [hr]
    · exact fillOperands_branch_operands _ _ _ _ rfl
    · exact ⟨rfl, rfl, rfl⟩
  · rintro rfl
    rw [hr]
    exact targetLabel_fillOperands _ _ _ rfl rfl
  · rintro rfl hshared hops
    rw [hr, hshared]
    exact fillOperands_label_shared _ _ _ rfl hops

/-! ### The two settings of `LABEL_FIELDS` -/

/-- The instruction of a record does not depend on the setting: no operand but a branch's is put into a label field,
and the branch notes it in `tlabel` either way (R93). -/
theorem instr_fillOperands_labelFields (lf lf' : LabelFields) (m : Mnemonic) (ops line : Text) (l : Option Text) :
    (fillOperands lf' m ops (lineRecord line l)).instr = (fillOperands lf m ops (lineRecord line l)).instr := by
  obtain ⟨k, c, f⟩ := m
  cases k with
  | b => rw [instr_fillOperands_branch _ _ rfl rfl, instr_fillOperands_branch _ _ rfl rfl]
  | _ => rfl

/-- What a line that is no labelled branch declares and branches to does not depend on the setting (R93). -/
theorem labelContent_fillOperands {cfg cfg' : Config} {m : Mnemonic} {l : Option Text} (h : m.kind = .b → l = none)
    (ops line : Text) :
    labelContent cfg' (fillOperands cfg'.labelFields m ops (lineRecord line l)) =
      labelContent cfg (fillOperands cfg.labelFields m ops (lineRecord line l)) := by
  by_cases hk : m.kind = .b
  · obtain rfl := h hk
    simp [labelContent, hk, targetLabel_fillOperands, lineRecord, InstrRecord.blank]
  · simp [labelContent, hk, declLabel, fillOperands_label]

/-- Settles O51. -/
theorem labelFieldsAgree : Obligations.LabelFieldsAgree := by
  intro cfg cfg' line htbl r r' hbranch
  rcases line_cases cfg.mnemonicTable line with hlabel | ⟨w, opText, hat, hk⟩
  · have hr : r = lineRecord line _ := decodeLine_labelOnly hlabel
    have hr' : r' = lineRecord line _ := decodeLine_labelOnly (cfg := cfg') (htbl ▸ hlabel)
    rw [hr, hr']
    exact ⟨rfl, rfl, rfl⟩
  · have hr : r = fillOperands _ _ _ _ := decodeLine_instr hat rfl hk
    have hr' : r' = fillOperands cfg'.labelFields (decodeMnemonic cfg.mnemonicTable w) opText
        (lineRecord line (declaredLabel cfg.mnemonicTable line)) := by
      rw [← htbl] at hat hk ⊢
      exact decodeLine_instr hat rfl hk
    have hnone : (decodeMnemonic cfg.mnemonicTable w).kind = .b → declaredLabel cfg.mnemonicTable line = none := by
      intro hb
      by_contra hl
      refine hbranch ⟨?_, ?_⟩
      · rw [hr, fillOperands_kind, hb]
      · rw [hr, fillOperands_hasLabel]
        exact Option.isSome_iff_ne_none.mpr hl
    rw [hr, hr']
    exact ⟨instr_fillOperands_labelFields .., by simp only [fillOperands_hasLabel],
      labelContent_fillOperands hnone opText line⟩

/-! ### The input contract -/

theorem decode_of_lineProblem_eq_none {line : Text} (cfg : Config) (h : lineProblem line = none) :
    decode cfg line = .ok (decodeLine cfg line) := by
  rw [decode, h]

theorem decode_of_lineProblem_eq_some {line : Text} {p : LineProblem} (cfg : Config) (h : lineProblem line = some p) :
    decode cfg line = .error p := by
  rw [decode, h]

/-- Decode rejects exactly the lines outside the contract. -/
theorem decode_eq_error_iff (cfg : Config) (line : Text) (p : LineProblem) :
    decode cfg line = .error p ↔ lineProblem line = some p := by
  cases h : lineProblem line with
  | none => simp [decode_of_lineProblem_eq_none cfg h]
  | some q => simp [decode_of_lineProblem_eq_some cfg h]

/-- Settles O52: a line lies in the contract when it is not empty and tidy. -/
theorem decoderRejectsOnlyOutsideContract : Obligations.DecoderRejectsOnlyOutsideContract := by
  intro cfg line
  have hedge : ∀ o : Option Chr, (∀ c ∈ o, isWs c = false) ↔ ¬ ∃ c, o = some c ∧ isWs c = true := by simp
  have hend : textOk line = true ↔ ¬ ∃ c ∈ line, c = 0x0A#8 ∨ c = 0x0D#8 := by simp [textOk, isLineEnd]
  have htidy : Tidy line ↔ (∀ c ∈ line.head?, isWs c = false) ∧ (∀ c ∈ line.getLast?, isWs c = false) ∧
      textOk line = true := ⟨fun ⟨ht, hf, hl⟩ => ⟨hf, hl, ht⟩, fun ⟨hf, hl, ht⟩ => ⟨ht, hf, hl⟩⟩
  calc (∃ p, decode cfg line = .error p)
      ↔ lineProblem line ≠ none := by simp only [decode_eq_error_iff, Option.ne_none_iff_exists']
    _ ↔ ¬ (line ≠ [] ∧ Tidy line) := not_congr (lineProblem_eq_none_iff line)
    _ ↔ _ := by simp only [htidy, hedge, hend, ne_eq, not_and_or, not_not]

/-! ### Compare, with and without the marker -/

theorem condSuffix_all_isWordChr (c : Cond) : (condSuffix c).all isWordChr = true := by cases c <;> decide

/-- A mnemonic of word characters is a word, whatever its suffix and marker. -/
theorem mnemonicToken_all_isWordChr {base : Text} (h : base.all isWordChr = true) (c : Cond) (f : Bool) :
    (mnemonicToken base c f).all isWordChr = true := by
  rw [mnemonicToken, List.all_append, List.all_append, h, condSuffix_all_isWordChr]
  cases f <;> decide

theorem mnemonicToken_ne_nil {base : Text} (h : base ≠ []) (c : Cond) (f : Bool) : mnemonicToken base c f ≠ [] := by
  simp [mnemonicToken, h]

/-- A compare with any suffix, marker and operand text (R78). -/
theorem decodeLine_cmp {cfg : Config} (htbl : cfg.mnemonicTable = defaultMnemonicTable) (c : Cond) (f : Bool)
    (ops : Text) :
    decodeLine cfg (mnemonicToken (ascii "CMP") c f ++ ch ' ' :: ops) =
      { lineRecord (mnemonicToken (ascii "CMP") c f ++ ch ' ' :: ops) none with
        kind := .cmp, cond := c, sflag := true, rn := parseReg (tokenize (ops.dropWhile isWs))[0]?,
        op2 := parseOp2 (tokenize (ops.dropWhile isWs))[1]? } := by
  have hm : decodeMnemonic cfg.mnemonicTable (mnemonicToken (ascii "CMP") c f) = ⟨.cmp, c, f⟩ :=
    htbl ▸ Laws.MnemonicToken.token_decodes .cmp (by decide) c f
  have hsplit := splitFirstWord_append (w := mnemonicToken (ascii "CMP") c f) (rest := ch ' ' :: ops)
    (mnemonicToken_ne_nil (by decide) c f) (mnemonicToken_all_isWordChr (by decide) c f) (by simp [isWs, ch])
  rw [decodeLine_instr (.inl hsplit) hm (by simp), declaredLabel, hsplit, hm, if_neg (by simp)]
  rfl

/-- Settles O49. -/
theorem compareMarkerIgnored : Obligations.CompareMarkerIgnored := by
  intro cfg c ops htbl plain marked
  have hplain : plain = _ := decodeLine_cmp htbl c false ops
  have hmarked : marked = _ := decodeLine_cmp htbl c true ops
  rw [hplain, hmarked]
  exact ⟨rfl, rfl, rfl⟩

/-- Settles O42, by evaluation: these lines' instructions depend on nothing of the configuration but the table. -/
theorem writtenLinesDecode : Obligations.WrittenLinesDecode := by
  rintro ⟨memBase, tbl, lf⟩ rfl
  exact ⟨rfl, rfl, rfl, rfl, rfl, rfl, rfl⟩

end Sys2Proof

end

section
/-! Decoding what the encoder writes: the operand texts, the line of an instruction, and the round trip. -/

namespace Sys2Proof

/-! ### Operand texts -/

theorem tidy_joinCommas {fs : List Text} (h : ∀ f ∈ fs, operandNameOk f = true) : Tidy (joinCommas fs) := by
  induction fs with
  | nil => exact tidy_of_all_isWordChr rfl
  | cons f fs ih =>
    have hf : Tidy f := ((operandNameOk_iff f).mp (h f (by simp))).1
    cases fs with
    | nil => exact hf
    | cons g gs => exact hf.append_cons (ih fun d hd => h d (List.mem_cons_of_mem f hd)) rfl (.inl rfl)

theorem tidy_branchOperand {l : Option Text} (h : l.all operandNameOk = true) : Tidy (branchOperand l) := by
  match l, h with
  | none, _ => exact tidy_of_all_isWordChr rfl
  | some [], _ => exact tidy_of_all_isWordChr (by decide)
  | some (c :: cs), h => exact ((operandNameOk_iff _).mp h).1

/-- The first token of a branch's operand text is its label name; an empty name is kept by the field after it (R72). -/
theorem tokenize_branchOperand {l : Option Text} (h : l.all operandNameOk = true) :
    (tokenize (branchOperand l))[0]? = l := by
  match l, h with
  | none, _ => rfl
  | some [], _ => rfl
  | some (c :: cs), h =>
    have htok : tokenize (joinCommas [c :: cs]) = dropTrailingEmpty [c :: cs] :=
      tokenize_joinCommas (List.cons_ne_nil _ _) fun f hf => List.mem_singleton.mp hf ▸ h
    exact congrArg (·[0]?) htok

/-- A register read from the tokens of joined fields is read from the field itself, empty or not. -/
theorem parseReg_tokenize {fs : List Text} (h0 : fs ≠ []) (h : ∀ f ∈ fs, operandNameOk f = true) (i : Nat) :
    parseReg (tokenize (joinCommas fs))[i]? = parseReg fs[i]? := by
  rw [tokenize_joinCommas h0 h, parse_dropTrailingEmpty parseReg rfl]

theorem parseOp2_tokenize {fs : List Text} (h0 : fs ≠ []) (h : ∀ f ∈ fs, operandNameOk f = true) (i : Nat) :
    parseOp2 (tokenize (joinCommas fs))[i]? = parseOp2 fs[i]? := by
  rw [tokenize_joinCommas h0 h, parse_dropTrailingEmpty parseOp2 rfl]

section
variable (rd rn : RegIdx) (op2 : Op2)

theorem threeFields_ok : ∀ f ∈ [regField rd, regField rn, op2Field op2], operandNameOk f = true := by
  simp [regField_ok, op2Field_ok]

theorem twoFields_ok : ∀ f ∈ [regField rd, op2Field op2], operandNameOk f = true := by
  simp [regField_ok, op2Field_ok]

theorem addrFields_ok : ∀ f ∈ [regField rd, addrField rn], operandNameOk f = true := by
  simp [regField_ok, addrField_ok]

end

/-- The operand text of a well-formed instruction is tidy. -/
theorem tidy_operandText {i : Instr} (hwf : i.wellFormed = true) : Tidy (operandText i) := by
  cases i with
  | nop | invalid => exact tidy_of_all_isWordChr rfl
  | add | sub | and | orr | eor | lsl | lsr => exact tidy_joinCommas (threeFields_ok _ _ _)
  | mvn | mov | cmp => exact tidy_joinCommas (twoFields_ok _ _)
  | ldr | str => exact tidy_joinCommas (addrFields_ok _ _)
  | b =>
    simp only [Instr.wellFormed, Bool.and_eq_true] at hwf
    exact tidy_branchOperand hwf.2
  | beq => exact tidy_branchOperand hwf

/-- Reading back the operands an instruction was written with (R72 to R82). -/
theorem instr_fillOperands_operandText (lf : LabelFields) {i : Instr} (hi : i.kind ≠ .invalid)
    (hwf : i.wellFormed = true) (line : Text) (l : Option Text) :
    (fillOperands lf ⟨i.kind, i.cond, i.marked⟩ (operandText i) (lineRecord line l)).instr = i.unresolved := by
  cases i with
  | nop => rfl
  | invalid => exact absurd rfl hi
  | add c f rd rn op2 | sub c f rd rn op2 | and c f rd rn op2 | orr c f rd rn op2 | eor c f rd rn op2
  | lsl c f rd rn op2 | lsr c f rd rn op2 =>
    have hok := threeFields_ok rd rn op2
    simp [InstrRecord.instr, fillOperands, operandText, Instr.kind, Instr.cond, Instr.marked, Instr.unresolved,
      parseReg_tokenize _ hok, parseOp2_tokenize _ hok, parseReg_regField, parseOp2_op2Field]
  | mvn c f rd op2 | mov c f rd op2 | cmp c rd op2 =>
    have hok := twoFields_ok rd op2
    simp [InstrRecord.instr, fillOperands, operandText, Instr.kind, Instr.cond, Instr.marked, Instr.unresolved,
      parseReg_tokenize _ hok, parseOp2_tokenize _ hok, parseReg_regField, parseOp2_op2Field]
  | ldr c f rd rn | str c f rd rn =>
    have hok := addrFields_ok rd rn
    simp [InstrRecord.instr, fillOperands, operandText, Instr.kind, Instr.cond, Instr.marked, Instr.unresolved,
      parseReg_tokenize _ hok, parseReg_regField, parseReg_addrField]
  | b c f name target =>
    simp only [Instr.wellFormed, Bool.and_eq_true, bne_iff_ne] at hwf
    refine (instr_fillOperands_branch lf (branchOperand name) (c := c) (f := f) rfl rfl).trans ?_
    rw [if_neg hwf.1, tokenize_branchOperand hwf.2]
    rfl
  | beq f name target =>
    refine (instr_fillOperands_branch lf (branchOperand name) (c := .eq) (f := f) rfl rfl).trans ?_
    rw [if_pos rfl, tokenize_branchOperand hwf]
    rfl

/-! ### The line of an instruction -/

/-- The mnemonic the encoder writes an instruction with, under the default table. -/
def mnemonicWord (i : Instr) : Text := mnemonicToken (baseName defaultMnemonicTable i.kind) i.cond i.marked

theorem baseName_spec {k : Kind} (hk : k ≠ .invalid) :
    baseName defaultMnemonicTable k ≠ [] ∧ (baseName defaultMnemonicTable k).all isWordChr = true := by
  cases k with
  | invalid => exact absurd rfl hk
  | _ => decide

section
variable {i : Instr} (hi : i.kind ≠ .invalid)
include hi

theorem mnemonicWord_ne_nil : mnemonicWord i ≠ [] := mnemonicToken_ne_nil (baseName_spec hi).1 _ _

theorem mnemonicWord_all_isWordChr : (mnemonicWord i).all isWordChr = true :=
  mnemonicToken_all_isWordChr (baseName_spec hi).2 _ _

theorem decodeMnemonic_mnemonicWord :
    decodeMnemonic defaultMnemonicTable (mnemonicWord i) = ⟨i.kind, i.cond, i.marked⟩ :=
  Laws.MnemonicToken.token_decodes i.kind hi i.cond i.marked

theorem instrText_eq_wordLine :
    instrText defaultMnemonicTable i = wordLine (mnemonicWord i) (operandText i) := if_neg hi

theorem instrText_ne_nil : instrText defaultMnemonicTable i ≠ [] := by
  rw [instrText_eq_wordLine hi]
  exact wordLine_ne_nil (mnemonicWord_ne_nil hi) _

end

theorem instrText_of_kind_invalid {i : Instr} (hi : i.kind = .invalid) : instrText defaultMnemonicTable i = [] :=
  if_pos hi

/-- A labelled line is its label word and the text of its instruction. -/
theorem encode_some (l : Text) (i : Instr) :
    encode (some l) i = wordLine (l ++ [ch ':']) (instrText defaultMnemonicTable i) := by
  simp [encode, encodeLine, wordLine]

theorem tidy_instrText {i : Instr} (hwf : i.wellFormed = true) : Tidy (instrText defaultMnemonicTable i) := by
  by_cases hi : i.kind = .invalid
  · rw [instrText_of_kind_invalid hi]
    exact tidy_of_all_isWordChr rfl
  · rw [instrText_eq_wordLine hi]
    exact Tidy.wordLine (mnemonicWord_ne_nil hi) (tidy_of_all_isWordChr (mnemonicWord_all_isWordChr hi))
      (tidy_operandText hwf)

/-! ### The label word -/

theorem labelWord_all_isWordChr {l : Text} (h : declNameOk l = true) : (l ++ [ch ':']).all isWordChr = true := by
  simp only [declNameOk, textOk, Bool.and_eq_true, List.all_eq_true] at h
  rw [List.all_append, Bool.and_eq_true]
  exact ⟨List.all_eq_true.mpr fun c hc => Bool.and_eq_true _ _ ▸ ⟨h.2 c hc, h.1 c hc⟩, by decide⟩

theorem labelText_labelWord (l : Text) : labelText (l ++ [ch ':']) = l := by
  rw [labelText, if_pos List.getLast?_concat, List.dropLast_concat]

theorem decodeMnemonic_labelWord (l : Text) :
    (decodeMnemonic defaultMnemonicTable (l ++ [ch ':'])).kind = .invalid :=
  decodeMnemonic_colon (by decide) l

/-! ### Decode of encode -/

theorem lineWellFormed_iff (lbl : Option Text) (i : Instr) :
    lineWellFormed lbl i = true ↔
      i.wellFormed = true ∧ lbl.all declNameOk = true ∧ (i.kind ≠ .invalid ∨ lbl.isSome = true) := by
  simp [lineWellFormed, and_assoc]

/-- The line of a well-formed instruction, labelled or not, lies in the input contract. -/
theorem lineProblem_encode {lbl : Option Text} {i : Instr} (h : lineWellFormed lbl i = true) :
    lineProblem (encode lbl i) = none := by
  obtain ⟨hwf, hlbl, hsome⟩ := (lineWellFormed_iff lbl i).mp h
  refine (lineProblem_eq_none_iff _).mpr ?_
  cases lbl with
  | none =>
    have hi : i.kind ≠ .invalid := hsome.resolve_right Bool.false_ne_true
    exact ⟨instrText_ne_nil hi, tidy_instrText hwf⟩
  | some l =>
    rw [encode_some]
    exact ⟨wordLine_ne_nil (by simp) _,
      Tidy.wordLine (by simp) (tidy_of_all_isWordChr (labelWord_all_isWordChr hlbl)) (tidy_instrText hwf)⟩

/-- What the encoder writes splits into its words again. -/
theorem splitFirstWord_instrText {i : Instr} (hi : i.kind ≠ .invalid) (hwf : i.wellFormed = true) :
    splitFirstWord (instrText defaultMnemonicTable i) = (mnemonicWord i, operandText i) := by
  rw [instrText_eq_wordLine hi]
  exact splitFirstWord_wordLine (mnemonicWord_ne_nil hi) (mnemonicWord_all_isWordChr hi) (tidy_operandText hwf)

theorem splitFirstWord_encode_some {l : Text} (hl : declNameOk l = true) {i : Instr} (hwf : i.wellFormed = true) :
    splitFirstWord (encode (some l) i) = (l ++ [ch ':'], instrText defaultMnemonicTable i) := by
  rw [encode_some]
  exact splitFirstWord_wordLine (by simp) (labelWord_all_isWordChr hl) (tidy_instrText hwf)

/-- The record of an encoded instruction: its operands read into the record with its label. -/
theorem decodeLine_encode {cfg : Config} (htbl : cfg.mnemonicTable = defaultMnemonicTable) {lbl : Option Text}
    (hlbl : lbl.all declNameOk = true) {i : Instr} (hi : i.kind ≠ .invalid) (hwf : i.wellFormed = true) :
    decodeLine cfg (encode lbl i) =
      fillOperands cfg.labelFields ⟨i.kind, i.cond, i.marked⟩ (operandText i) (lineRecord (encode lbl i) lbl) := by
  have hm := decodeMnemonic_mnemonicWord hi
  have hinstr := splitFirstWord_instrText hi hwf
  cases lbl with
  | none =>
    have hsplit : splitFirstWord (encode none i) = (mnemonicWord i, operandText i) := hinstr
    have hlabel : declaredLabel defaultMnemonicTable (encode none i) = none := by
      rw [declaredLabel, hsplit, hm, if_neg hi]
    rw [decodeLine_instr (.inl hsplit) (htbl ▸ hm) hi, htbl, hlabel]
  | some l =>
    have hsplit := splitFirstWord_encode_some (i := i) hlbl hwf
    have hfirst := decodeMnemonic_labelWord l
    have hlabel : declaredLabel defaultMnemonicTable (encode (some l) i) = some l := by
      rw [declaredLabel, hsplit, if_pos hfirst, labelText_labelWord]
    have hat : instrAt defaultMnemonicTable (encode (some l) i) (mnemonicWord i) (operandText i) := by
      refine .inr ?_
      rw [hsplit]
      exact ⟨hfirst, instrText_ne_nil hi, hinstr⟩
    rw [decodeLine_instr (htbl ▸ hat) (htbl ▸ hm) hi, htbl, hlabel]

/-- The record of an encoded label-only line. -/
theorem decodeLine_encode_labelOnly {cfg : Config} (htbl : cfg.mnemonicTable = defaultMnemonicTable) {l : Text}
    (hl : declNameOk l = true) {i : Instr} (hi : i.kind = .invalid) (hwf : i.wellFormed = true) :
    decodeLine cfg (encode (some l) i) = lineRecord (encode (some l) i) (some l) := by
  have hsplit := splitFirstWord_encode_some (i := i) hl hwf
  rw [instrText_of_kind_invalid hi] at hsplit
  have hlabel : isLabelOnly cfg.mnemonicTable (encode (some l) i) := by
    rw [isLabelOnly, hsplit, htbl]
    exact ⟨decodeMnemonic_labelWord l, absurd rfl⟩
  rw [decodeLine_labelOnly hlabel, hsplit, labelText_labelWord]

/-- A well-formed instruction of the invalid kind is what a label-only record stands for. -/
theorem instr_lineRecord {i : Instr} (hi : i.kind = .invalid) (hwf : i.wellFormed = true) (line l : Text) :
    (lineRecord line (some l)).instr = i.unresolved := by
  cases i with
  | invalid hl c =>
    simp only [Instr.wellFormed, Bool.and_eq_true, beq_iff_eq] at hwf
    obtain ⟨rfl, rfl⟩ := hwf
    rfl
  | _ => cases hi

/-- Settles O43: the encoder's words are split off again, the mnemonic reads as the instruction's kind, condition and
marker, and every operand field as the operand it was written for. -/
theorem decodeOfEncode : Obligations.DecodeOfEncode := by
  intro cfg lbl i htbl h
  have hok := decode_of_lineProblem_eq_none cfg (lineProblem_encode h)
  obtain ⟨hwf, hlbl, hsome⟩ := (lineWellFormed_iff lbl i).mp h
  refine ⟨_, hok, ?_⟩
  by_cases hi : i.kind = .invalid
  · obtain ⟨l, rfl⟩ := Option.isSome_iff_exists.mp (hsome.resolve_left fun hne => hne hi)
    rw [decodeLine_encode_labelOnly htbl hlbl hi hwf]
    exact ⟨instr_lineRecord hi hwf _ l, rfl, rfl, fun _ => rfl⟩
  · have hrec := decodeLine_encode htbl hlbl hi hwf
    refine ⟨?_, decodeLine_raw cfg _, ?_, fun hlabel => ?_⟩
    · rw [hrec]
      exact instr_fillOperands_operandText _ hi hwf _ _
    · rw [hrec, fillOperands_hasLabel]
      rfl
    · rw [hrec, fillOperands_label _ _ _ _ (hlabel.imp_right .inl)]
      rfl

end Sys2Proof

end

section
/-! LOAD, step by step (R83, R241), and runs that do not stop (R95, R220). -/

namespace Sys2Proof.Machine

open Host

/-! ### Loading, and runs that do not stop -/

/-- Settles O54. -/
theorem loadStepAppendsRecord : Obligations.LoadStepAppendsRecord := by
  intro s hload
  have hstep : step s = loadStep s := by rw [step, hload]
  refine ⟨fun hinput => ?_, fun line rest hinput hline => ?_, fun line rest p hinput hline => ?_⟩ <;>
    rw [hstep, loadStep, hinput]
  · simp only [decode_of_lineProblem_eq_none s.config hline]
  · simp only [decode_of_lineProblem_eq_some s.config hline]

/-- No instruction stops the machine (R220). -/
theorem exec_continues (i : Instr) (s : State) : ∃ t, exec i s = .next t := ⟨_, exec_eq_gate i s⟩

/-- A step stops the machine only in LOAD, on a line outside the contract (R60, R220). -/
theorem step_continues {s : State} (h : s.phase = .load → ∀ l ∈ s.input, lineProblem l = none) : Continues s := by
  cases hp : s.phase with
  | load =>
    obtain ⟨hlast, hline, -⟩ := loadStepAppendsRecord s hp
    cases hi : s.input with
    | nil => exact ⟨_, hlast hi⟩
    | cons l rest => exact ⟨_, hline l rest hi (h hp l (by simp [hi]))⟩
  | resolve => exact ⟨_, by rw [step, hp, resolveStep]⟩
  | run =>
    cases hf : fetch s with
    | none => exact ⟨{ s with phase := .halt }, by rw [step, hp]; simp only [runStep, hf]⟩
    | some r =>
      obtain ⟨t, ht⟩ := exec_continues r.instr s
      exact ⟨emitSnapshot r.raw t, by rw [step, hp]; simp only [runStep, hf, ht]⟩
  | halt => exact ⟨s, by rw [step, hp]⟩

/-- A step takes lines from the input and adds none. -/
theorem step_input_subset {s t : State} (h : step s = .next t) : t.input ⊆ s.input := by
  rcases step_cases h with ⟨-, -, rfl⟩ | ⟨-, line, rest, hi, -, rfl⟩ | ⟨-, rfl⟩ | ⟨-, -, rfl⟩ |
    ⟨-, r, u, -, hu, rfl⟩ | ⟨-, rfl⟩
  · exact List.Subset.refl _
  · rw [hi]
    exact List.subset_cons_self ..
  · exact List.Subset.refl _
  · exact List.Subset.refl _
  · obtain ⟨-, -, hinput, -⟩ := exec_keeps hu
    rw [emitSnapshot_input, hinput]
    exact List.Subset.refl _
  · exact List.Subset.refl _

/-- A state whose lines lie in the contract runs on for any number of steps. -/
theorem run_continues (k : Nat) {s : State} (h : ∀ l ∈ s.input, lineProblem l = none) :
    ∃ t, Host.Core.run Sys2Proof.core k s = .next t := by
  induction k generalizing s with
  | zero => exact ⟨s, rfl⟩
  | succ k ih =>
    obtain ⟨t, ht⟩ := step_continues fun _ => h
    rw [core_run_next ht]
    exact ih fun l hl => h l (step_input_subset ht hl)

/-- Settles O57. -/
theorem runNeverStops : Obligations.RunNeverStops :=
  fun cfg lines h k => run_continues k (s := State.start cfg lines) h

end Sys2Proof.Machine

end

section
/-! The steps of RUN and HALT (R120 to R124, R241, R245), the snapshots they hand out (R130, R134), and the values that
execution reads: the condition predicate (R125) and Operand-2 (R127). -/

namespace Sys2Proof.Machine

open Sys2Proof Host

/-! ### Conditions and operands -/

/-- Settles O4: the Boolean formulas of the predicate, read as propositions. -/
theorem conditionPredicate : Obligations.ConditionPredicate := by
  intro f
  refine ⟨rfl, Iff.rfl, iff_of_eq (Bool.not_eq_true' _), ?_, beq_iff_eq, bne_iff_ne, ?_⟩
  · rw [condHolds, Bool.and_eq_true, Bool.not_eq_true', beq_iff_eq]
  · rw [condHolds, Bool.or_eq_true, bne_iff_ne]

/-- Settles O22. -/
theorem operandTwoValue : Obligations.OperandTwoValue :=
  fun s _ _ => ⟨rfl, rfl, rdreg_in s, rdreg_out s⟩

/-! ### One step of RUN or HALT -/

/-- A step at a record runs the record's instruction and hands out the snapshot of the result (R121, R124). -/
theorem step_of_exec {s t : State} {r : InstrRecord} (hrun : s.phase = .run) (hfetch : s.prog[s.pc]? = some r)
    (h : exec r.instr s = .next t) : step s = .next (emitSnapshot r.raw t) := by
  rw [step, hrun]
  simp only [runStep, fetch, hfetch, h]

/-- What a step at a record can answer: the result of the record's instruction, with its snapshot. -/
theorem step_at_record {s t : State} {r : InstrRecord} (hrun : s.phase = .run) (hfetch : s.prog[s.pc]? = some r)
    (h : step s = .next t) : ∃ u, exec r.instr s = .next u ∧ t = emitSnapshot r.raw u := by
  obtain ⟨u, hu⟩ := exec_continues r.instr s
  rw [step_of_exec hrun hfetch hu] at h
  exact ⟨u, hu, (Outcome.next.inj h).symm⟩

/-- A step with `pc` past the program ends the run (R245). -/
theorem step_past_end {s : State} (hrun : s.phase = .run) (hpc : s.prog.length ≤ s.pc) :
    step s = .next { s with phase := .halt } := by
  rw [step, hrun]
  simp only [runStep, fetch, List.getElem?_eq_none hpc]

/-- A step in HALT changes nothing (R241). -/
theorem step_halt {s : State} (hhalt : s.phase = .halt) : step s = .next s := by
  rw [step, hhalt]

/-- Settles O10. -/
theorem stepRunsFetchedInstruction : Obligations.StepRunsFetchedInstruction :=
  fun _ _ _ => step_of_exec

/-- Settles O12. -/
theorem runEndsPastProgram : Obligations.RunEndsPastProgram :=
  fun _ => ⟨step_past_end, step_halt⟩

/-- Settles O11: a label-only line is an instruction that only advances, under any flags. -/
theorem labelOnlyStep : Obligations.LabelOnlyStep := by
  intro s r hrun hfetch hkind hlabel
  have hinstr : r.instr = .invalid true r.cond := by rw [InstrRecord.instr, hkind, hlabel]
  exact step_of_exec hrun hfetch (by rw [hinstr, exec_invalid_labelled])

/-- Settles O9: the skip of an instruction, and the step that makes it. -/
theorem failedConditionSkips : Obligations.FailedConditionSkips := by
  refine ⟨fun i s _ hcond => exec_condition_fails hcond, fun s r hrun hfetch _ hcond => ?_⟩
  exact step_of_exec hrun hfetch (exec_condition_fails (by rw [InstrRecord.instr_cond, hcond]))

/-! ### Snapshots -/

/-- A snapshot holds the registers in ascending order (R130). -/
theorem snapshotOf_regs_getElem (raw : Text) (s : State) {i : Nat} (h : i < 12) :
    (snapshotOf raw s).regs[i] = rdreg s (some i) :=
  (rdreg_in s h).symm

/-- A snapshot holds the memory words in ascending order (R130). -/
theorem snapshotOf_mem_getElem (raw : Text) (s : State) {k : Nat} (h : k < 5) :
    (snapshotOf raw s).mem[k] = Memory.read s.mem k :=
  Vector.getElem_ofFn h

/-- A step at a record adds the snapshot of its result to those handed out before. -/
theorem step_emitted_at_record {s t : State} {r : InstrRecord} (hrun : s.phase = .run)
    (hfetch : s.prog[s.pc]? = some r) (h : step s = .next t) : t.emitted = snapshotOf r.raw t :: s.emitted := by
  obtain ⟨u, hu, rfl⟩ := step_at_record hrun hfetch h
  obtain ⟨-, -, -, -, hemitted⟩ := exec_keeps hu
  rw [emitSnapshot_emitted, hemitted]
  rfl

/-- A step that executes no record hands out no snapshot (R241). -/
theorem step_emitted_otherwise {s t : State} (hno : s.phase ≠ .run ∨ s.prog.length ≤ s.pc)
    (h : step s = .next t) : t.emitted = s.emitted := by
  rcases step_cases h with ⟨-, -, rfl⟩ | ⟨-, line, rest, -, -, rfl⟩ | ⟨-, rfl⟩ | ⟨-, -, rfl⟩ |
    ⟨hrun, r, u, hfetch, -, -⟩ | ⟨-, rfl⟩
  case inr.inr.inr.inr.inl =>
    obtain ⟨hpc, -⟩ := List.getElem?_eq_some_iff.mp hfetch
    rcases hno with hphase | hend
    · exact absurd hrun hphase
    · exact absurd hpc (Nat.not_lt.mpr hend)
  all_goals rfl

/-- Settles O13: the snapshot added is the one of the next state, under the record's text. -/
theorem oneSnapshotPerStep : Obligations.OneSnapshotPerStep := by
  intro s t h
  refine ⟨fun hrun r hfetch => ?_, fun hno => step_emitted_otherwise hno h⟩
  exact ⟨snapshotOf r.raw t, step_emitted_at_record hrun hfetch h, rfl, rfl,
    fun _ => snapshotOf_regs_getElem r.raw t, fun _ => snapshotOf_mem_getElem r.raw t⟩

/-! ### Snapshots over a run -/

/-- A step from RUN ends the run, or stays in RUN and hands out one snapshot. -/
theorem step_run_counts {s t : State} (hrun : s.phase = .run) (h : step s = .next t) :
    t.phase = .halt ∨ (t.phase = .run ∧ t.emitted.length = s.emitted.length + 1) := by
  cases hfetch : s.prog[s.pc]? with
  | none =>
    rw [step_past_end hrun (List.getElem?_eq_none_iff.mp hfetch)] at h
    exact .inl (congrArg State.phase (Outcome.next.inj h)).symm
  | some r =>
    have hlen : t.emitted.length = s.emitted.length + 1 := by
      rw [step_emitted_at_record hrun hfetch h, List.length_cons]
    obtain ⟨u, hu, rfl⟩ := step_at_record hrun hfetch h
    obtain ⟨-, hphase, -⟩ := exec_keeps hu
    exact .inr ⟨hphase.trans hrun, hlen⟩

/-- A run from HALT stays where it is. -/
theorem core_run_halt {s : State} (hhalt : s.phase = .halt) (k : Nat) :
    Host.Core.run Sys2Proof.core k s = .next s := by
  induction k with
  | zero => rfl
  | succ k ih => rw [core_run_next (step_halt hhalt), ih]

/-- Settles O14, by induction on the number of steps: a run that has reached HALT does not come back to RUN. -/
theorem snapshotCountIsStepCount : Obligations.SnapshotCountIsStepCount := by
  intro k
  induction k with
  | zero =>
    intro s t _ hk _
    obtain rfl := Outcome.next.inj hk
    rfl
  | succ k ih =>
    intro s t hrun hk ht
    obtain ⟨u, hu, hk⟩ := core_run_inv hk
    rcases step_run_counts hrun hu with hhalt | ⟨hrun', hlen⟩
    · rw [core_run_halt hhalt] at hk
      obtain rfl := Outcome.next.inj hk
      exact absurd (hhalt.symm.trans ht) (by decide)
    · rw [ih u t hrun' hk ht, hlen, Nat.add_right_comm, Nat.add_assoc]

end Sys2Proof.Machine

end

section
/-! Branches under each condition (R194, R195), and what compares, loads, stores, branches and the instructions without
effect leave unchanged (R131). -/

namespace Sys2Proof.Machine

open Sys2Proof Host

/-! ### Branches -/

/-- A branch with `Z` set goes to a target within the program (R194, R196). -/
theorem branchNext_taken {s : State} {k : Nat} (hz : s.flags.z = true) (hk : k < s.prog.length) :
    branchNext (some k) s = k := by
  simp [branchNext, hz, hk]

/-- A branch with `Z` clear, or without a target within the program, falls through (R194, R196). -/
theorem branchNext_not_taken {s : State} {target : Option Nat}
    (h : ¬ ∃ k, target = some k ∧ k < s.prog.length ∧ s.flags.z = true) : branchNext target s = s.pc + 1 := by
  cases target with
  | none => rfl
  | some k =>
    have hk : ¬ (s.flags.z = true ∧ k < s.prog.length) := fun ⟨hz, hk⟩ => h ⟨k, rfl, hk, hz⟩
    simp [branchNext, hk]

/-- The rows of R195's table under which a branch with `Z` set and a valid target is taken. -/
def branchRow (c : Cond) (f : Flags) : Prop :=
  c = .al ∨ c = .eq ∨ c = .le ∨ (c = .ge ∧ f.n = f.v) ∨ (c = .lt ∧ f.n ≠ f.v)

/-- Where `Z` is set, R195's rows are the conditions that hold (R125). -/
theorem condHolds_iff_branchRow {f : Flags} (hz : f.z = true) (c : Cond) :
    condHolds c f = true ↔ branchRow c f := by
  cases c <;> simp [condHolds, branchRow, hz]

/-- Settles O25: a branch is taken when both its condition and its own test of `Z` and the target allow it. -/
theorem branchUnderEachCondition : Obligations.BranchUnderEachCondition := by
  intro c f l target s
  by_cases htaken : ∃ k, target = some k ∧ k < s.prog.length ∧ s.flags.z = true ∧ branchRow c s.flags
  · obtain ⟨k, rfl, hk, hz, hrow⟩ := htaken
    refine ⟨k, ?_, .inl ⟨k, rfl, hk, rfl, hz, hrow⟩⟩
    rw [exec_b, gate_holds _ ((condHolds_iff_branchRow hz c).mpr hrow), branchNext_taken hz hk]
    rfl
  · refine ⟨s.pc + 1, ?_, .inr ⟨rfl, htaken⟩⟩
    cases hc : condHolds c s.flags with
    | true =>
      have hnot : ¬ ∃ k, target = some k ∧ k < s.prog.length ∧ s.flags.z = true := fun ⟨k, ht, hk, hz⟩ =>
        htaken ⟨k, ht, hk, hz, (condHolds_iff_branchRow hz c).mp hc⟩
      rw [exec_b, gate_holds _ hc, branchNext_not_taken hnot]
      rfl
    | false => exact exec_condition_fails hc

/-! ### Frames -/

/-- An instruction without a destination leaves every register as it reads, the absent one included. -/
theorem exec_rdreg_of_destReg_none {i : Instr} {s t : State} (h : exec i s = .next t) (hd : destReg i = none)
    (j : RegIdx) : rdreg t j = rdreg s j := by
  cases j with
  | none => rfl
  | some j => exact exec_rdreg_other h (by simp [hd])

/-- A load or store changes no flag, under either marker (R86, R181, R182). -/
theorem exec_flags_of_load_or_store {i : Instr} {s t : State} (h : exec i s = .next t)
    (hk : i.kind ∈ [Kind.ldr, .str]) : t.flags = s.flags := by
  rcases exec_next h with rfl | rfl
  · cases i with
    | ldr => exact loadWord_flags ..
    | str => exact storeWord_flags ..
    | _ => simp [Instr.kind] at hk
  · rfl

/-- Settles O29: a compare has no destination and is no store. -/
theorem compareFrame : Obligations.CompareFrame := by
  intro c rn op2 s t h
  obtain ⟨hconfig, hphase, hinput, hprog, hemitted⟩ := exec_keeps h
  exact ⟨exec_rdreg_of_destReg_none h rfl, fun k => by rw [exec_mem_of_kind_ne_str h (by simp [Instr.kind])],
    hprog, hconfig, hphase, hinput, hemitted⟩

/-- Settles O30: the destination of a load is `rd`, and it is no store. -/
theorem loadFrame : Obligations.LoadFrame := by
  intro c f rd rn s t h
  obtain ⟨hconfig, hphase, hinput, hprog, hemitted⟩ := exec_keeps h
  exact ⟨fun j hj => exec_rdreg_other h hj, exec_flags_of_load_or_store h (by simp [Instr.kind]),
    fun k => by rw [exec_mem_of_kind_ne_str h (by simp [Instr.kind])], hprog, hconfig, hphase, hinput, hemitted⟩

/-- Settles O31: what a store writes to memory, it writes to the word its in-window address selects. -/
theorem storeFrame : Obligations.StoreFrame := by
  intro c f rd rn s t h
  obtain ⟨hconfig, hphase, hinput, hprog, hemitted⟩ := exec_keeps h
  refine ⟨exec_rdreg_of_destReg_none h rfl, exec_flags_of_load_or_store h (by simp [Instr.kind]), fun k hk => ?_,
    hprog, hconfig, hphase, hinput, hemitted⟩
  rcases exec_mem h with hmem | ⟨_, _, _, _, hi, hw, hmem⟩ <;> rw [hmem]
  obtain ⟨-, -, rfl, rfl⟩ := Instr.str.inj hi
  exact Memory.read_write_other _ _ (hk hw)

/-- The effect of a branch, of `NOP` and of the invalid kind is a write of `pc`. -/
theorem effect_eq_setPc {i : Instr} (hk : i.kind ∈ [Kind.b, .nop, .invalid]) (s : State) :
    ∃ n, effect i s = setPc s n := by
  cases i with
  | b | beq | nop | invalid => exact ⟨_, rfl⟩
  | _ => simp [Instr.kind] at hk

/-- Settles O32: executed or skipped, each of them writes `pc` only. -/
theorem branchAndNopFrame : Obligations.BranchAndNopFrame := by
  intro c f hl l target s t i hi h
  have hkind : i.kind ∈ [Kind.b, .nop, .invalid] := by
    simp only [List.mem_cons, List.not_mem_nil, or_false] at hi
    rcases hi with rfl | rfl | rfl | rfl <;> simp [Instr.kind]
  rcases exec_next h with rfl | rfl
  · obtain ⟨n, hn⟩ := effect_eq_setPc hkind s
    rw [hn]
    rfl
  · rfl

end Sys2Proof.Machine

end

section
/-! The arithmetic group: the flags of an addition and of a subtraction (R143, R144), and `ADD`, `SUB` and `CMP`,
executed (R140 to R142). -/

namespace Sys2Proof.Machine

open Sys2Proof Host

/-! ### Results as numbers -/

/-- The sum modulo 2^32 of R140 is the word sum. -/
theorem ofNat_sum_mod (a b : Word) : BitVec.ofNat 32 ((a.toNat + b.toNat) % 2 ^ 32) = a + b :=
  BitVec.eq_of_toNat_eq (by simp [BitVec.toNat_add])

/-- The difference of R141, with 2^32 added on a borrow, is the word difference. -/
theorem ofNat_difference_borrow (a b : Word) :
    BitVec.ofNat 32 (if b.toNat ≤ a.toNat then a.toNat - b.toNat else a.toNat + 2 ^ 32 - b.toNat) = a - b := by
  split <;> bv_omega

/-! ### The four flags -/

/-- `N` of R132 is set exactly when the result, as a number, is in the upper half. -/
theorem setNZ_n_iff (f : Flags) (r : Word) : (setNZ f r).n = true ↔ 2 ^ 31 ≤ r.toNat := by
  simp [setNZ, signBit_eq_msb, BitVec.msb_eq_decide]

theorem setNZ_z_iff (f : Flags) (r : Word) : (setNZ f r).z = true ↔ r.toNat = 0 := by
  rw [setNZ, decide_eq_true_eq, ← BitVec.toNat_inj]
  rfl

theorem addFlags_v_eq (a b r : Word) : (addFlags a b r).v = ((a ^^^ ~~~b) &&& (a ^^^ r)).getLsbD 31 := rfl

theorem subFlags_v_eq (a b r : Word) : (subFlags a b r).v = ((a ^^^ b) &&& (a ^^^ r)).getLsbD 31 := rfl

/-- The shape both formulas for `V` share: a mask, and whether the result's sign is unlike the first operand's. -/
theorem signDiffers_masked_iff (m a r : Word) :
    (m &&& (a ^^^ r)).getLsbD 31 = true ↔ m.getLsbD 31 = true ∧ r.getLsbD 31 ≠ a.getLsbD 31 := by
  rw [BitVec.getLsbD_and, BitVec.getLsbD_xor, Bool.and_eq_true, bne_iff_ne, ne_comm]

/-- The formula of R143 for `V`, read over the sign bits: the mask says that the operands' signs agree. -/
theorem addFlags_v_iff_signs (a b r : Word) :
    (addFlags a b r).v = true ↔ a.getLsbD 31 = b.getLsbD 31 ∧ r.getLsbD 31 ≠ a.getLsbD 31 := by
  have hagree : (a ^^^ ~~~b).getLsbD 31 = true ↔ a.getLsbD 31 = b.getLsbD 31 := by simp
  rw [addFlags_v_eq, signDiffers_masked_iff, hagree]

/-- The formula of R144 for `V`, read over the sign bits: the mask says that the operands' signs differ. -/
theorem subFlags_v_iff_signs (a b r : Word) :
    (subFlags a b r).v = true ↔ a.getLsbD 31 ≠ b.getLsbD 31 ∧ r.getLsbD 31 ≠ a.getLsbD 31 := by
  have hdiffer : (a ^^^ b).getLsbD 31 = true ↔ a.getLsbD 31 ≠ b.getLsbD 31 := by simp
  rw [subFlags_v_eq, signDiffers_masked_iff, hdiffer]

/-- Settles O5: the definition gives `C` and the formula for `V`, and the lemmas above the rest. -/
theorem additionFlags : Obligations.AdditionFlags := fun a b =>
  ⟨decide_eq_true_iff, setNZ_n_iff _ _, setNZ_z_iff _ _, by rw [addFlags_v_eq], addFlags_v_iff_signs a b _⟩

/-- Settles O6, as for the addition. -/
theorem subtractionFlags : Obligations.SubtractionFlags := fun a b =>
  ⟨decide_eq_true_iff, setNZ_n_iff _ _, setNZ_z_iff _ _, by rw [subFlags_v_eq], subFlags_v_iff_signs a b _⟩

/-! ### The instructions, executed -/

/-- Settles O15: past the gate, the operation with the result written as the word sum. -/
theorem addExecutes : Obligations.AddExecutes := by
  intro c f rd rn op2 s hc a b r
  have hr : r = a + b := ofNat_sum_mod a b
  rw [exec_add, gate_holds _ hc, hr]
  rfl

/-- Settles O16: past the gate, the operation with the result written as the word difference. -/
theorem subExecutes : Obligations.SubExecutes := by
  intro c f rd rn op2 s hc a b r
  have hr : r = a - b := ofNat_difference_borrow a b
  rw [exec_sub, gate_holds _ hc, hr]
  rfl

/-- Settles O17: as for the subtraction, and the absent destination takes no write. -/
theorem cmpExecutes : Obligations.CmpExecutes := by
  intro c rn op2 s hc a b r
  have hr : r = a - b := ofNat_difference_borrow a b
  rw [exec_cmp, gate_holds _ hc, hr]
  rfl

end Sys2Proof.Machine

end

section
/-! The bitwise group: `AND`, `ORR` and `EOR`, executed (R150 to R153). -/

namespace Sys2Proof.Machine

open Sys2Proof Host

/-- The end of an instruction under the flag rule of R153, field by field: of the flags, only `N` and `Z` are new. -/
theorem finish_logicFlags (s : State) (rd : RegIdx) (r : Word) (f : Bool) :
    finish s rd r f (logicFlags s.flags r) = { s with
      regs := writeReg s.regs rd r, pc := s.pc + 1,
      flags := if f then { s.flags with n := r.getLsbD 31, z := r == 0#32 } else s.flags } := rfl

/-- Settles O18: each instruction's word is the word operation, which acts bit by bit; past the gate, the end of the
instruction is that of the flag rule of R153. -/
theorem bitwiseExecutes : Obligations.BitwiseExecutes := by
  intro c f rd rn op2 s hc a b e he
  simp only [List.mem_cons, List.not_mem_nil, or_false] at he
  rcases he with rfl | rfl | rfl
  case inl =>
    refine ⟨a &&& b, fun _ _ => BitVec.getLsbD_and, ?_⟩
    rw [exec_and, gate_holds _ hc, finish_logicFlags]
    rfl
  case inr.inl =>
    refine ⟨a ||| b, fun _ _ => BitVec.getLsbD_or, ?_⟩
    rw [exec_orr, gate_holds _ hc, finish_logicFlags]
    rfl
  case inr.inr =>
    refine ⟨a ^^^ b, fun _ _ => BitVec.getLsbD_xor, ?_⟩
    rw [exec_eor, gate_holds _ hc, finish_logicFlags]
    rfl

end Sys2Proof.Machine

end

section
/-! The shift group: `LSL` and `LSR`, executed (R160 to R163). -/

namespace Sys2Proof.Machine

open Sys2Proof Host

/-! ### Results as numbers -/

/-- The word of a left shift, as the number R161 gives it; the amount is not masked (R160). -/
theorem lslResult_eq_ofNat (a amt : Word) :
    lslResult a amt =
      if amt.toNat ≥ 32 then 0#32 else BitVec.ofNat 32 ((a.toNat * 2 ^ amt.toNat) % 2 ^ 32) := by
  have hshift : a <<< amt.toNat = BitVec.ofNat 32 ((a.toNat * 2 ^ amt.toNat) % 2 ^ 32) :=
    BitVec.eq_of_toNat_eq (by simp [BitVec.toNat_shiftLeft, Nat.shiftLeft_eq])
  rw [← hshift]
  rfl

/-- The word of a right shift, as the number R162 gives it; the amount is not masked (R160). -/
theorem lsrResult_eq_ofNat (a amt : Word) :
    lsrResult a amt = if amt.toNat ≥ 32 then 0#32 else BitVec.ofNat 32 (a.toNat / 2 ^ amt.toNat) := by
  have hshift : a >>> amt.toNat = BitVec.ofNat 32 (a.toNat / 2 ^ amt.toNat) := by
    rw [← Nat.shiftRight_eq_div_pow, ← BitVec.toNat_ushiftRight, BitVec.ofNat_toNat, BitVec.setWidth_eq]
  rw [← hshift]
  rfl

/-! ### The instructions, executed -/

/-- The end of an instruction under the flag rule of R163, field by field: `V` stays, and `C` is the last bit shifted
out for amounts 1 to 31 and stays for every other. -/
theorem finish_shiftFlags (s : State) (rd : RegIdx) (r : Word) (f isLeft : Bool) (a amt : Word) :
    finish s rd r f (shiftFlags s.flags isLeft a amt r) = { s with
      regs := writeReg s.regs rd r, pc := s.pc + 1,
      flags := if f then
          { s.flags with
            n := r.getLsbD 31, z := r == 0#32,
            c := if 1 ≤ amt.toNat ∧ amt.toNat ≤ 31 then
                (if isLeft then a.getLsbD (32 - amt.toNat) else a.getLsbD (amt.toNat - 1))
              else s.flags.c }
        else s.flags } := rfl

/-- Settles O19: past the gate, the end of a left shift, with the result written as R161's number. -/
theorem lslExecutes : Obligations.LslExecutes := by
  intro c f rd rn op2 s hc a amt r
  have hr : lslResult a (op2val s op2) = r := lslResult_eq_ofNat a _
  rw [exec_lsl, gate_holds _ hc, finish_shiftFlags, ← hr]
  rfl

/-- Settles O20: past the gate, the end of a right shift, with the result written as R162's number. -/
theorem lsrExecutes : Obligations.LsrExecutes := by
  intro c f rd rn op2 s hc a amt r
  have hr : lsrResult a (op2val s op2) = r := lsrResult_eq_ofNat a _
  rw [exec_lsr, gate_holds _ hc, finish_shiftFlags, ← hr]
  rfl

end Sys2Proof.Machine

end

section
/-! The move group: `MOV` and `MVN`, executed (R170, R171). -/

namespace Sys2Proof.Machine

open Sys2Proof Host

/-- Settles O21: `MOV` ends with the word of Operand-2 and `MVN` with its complement, both under the flag rule shared
with R153. -/
theorem movesExecute : Obligations.MovesExecute := by
  intro c f rd op2 s hc v e he
  simp only [List.mem_cons, List.not_mem_nil, or_false] at he
  rcases he with rfl | rfl
  case inl =>
    refine ⟨v, rfl, ?_⟩
    rw [exec_mov, gate_holds _ hc, finish_logicFlags]
  case inr =>
    have hcomplement : (~~~v).toNat = 0xFFFFFFFF - v.toNat := BitVec.toNat_not
    refine ⟨~~~v, hcomplement, ?_⟩
    rw [exec_mvn, gate_holds _ hc, finish_logicFlags]

end Sys2Proof.Machine

end

section
/-! The load/store group: `LDR` and `STR`, executed (R180 to R182), at the addresses of the window and at every other
(R41, R42, R45). -/

namespace Sys2Proof.Machine

open Sys2Proof Host

/-! ### The window, by the address as a number -/

/-- The number base + 4k, for k below 5, is an address in the window, and it selects word k (R41, R42). -/
theorem inWindow_wordIndex_of_toNat {base addr : Word} {k : Nat} (hk : k < 5)
    (haddr : addr.toNat = base.toNat + 4 * k) : inWindow base addr = true ∧ wordIndex base addr = k := by
  have hw : inWindow base addr = true := (inWindow_iff _ _).mpr (by omega)
  obtain ⟨-, hindex⟩ := inWindow_wordIndex hw
  exact ⟨hw, by omega⟩

/-- An address that is none of the five numbers fails the window test (R45). -/
theorem inWindow_eq_false_of_toNat {base addr : Word}
    (haddr : ∀ k, k < 5 → addr.toNat ≠ base.toNat + 4 * k) : inWindow base addr = false := by
  refine Bool.eq_false_iff.mpr fun hw => ?_
  obtain ⟨hk, hindex⟩ := inWindow_wordIndex hw
  exact haddr _ hk hindex

/-! ### Memory -/

/-- Reading any word after a write to one of them, in a memory in canonical form. -/
theorem Memory.read_write {m : Memory} (hm : Memory.wf m) (k : Nat) (v : Word) (j : Nat) :
    Memory.read (Memory.write m k v) j = if j = k then v else Memory.read m j := by
  split
  case isTrue h => rw [h, Memory.read_write_same hm]
  case isFalse h => exact Memory.read_write_other m v h

/-! ### Loads and stores outside the window -/

/-- A load outside the window only advances `pc` (R45, R181). -/
theorem exec_ldr_outside {c : Cond} {s : State} {rn : RegIdx} (f : Bool) (rd : RegIdx)
    (hc : condHolds c s.flags = true) (hw : inWindow s.config.memBase (effAddr s rn) = false) :
    exec (.ldr c f rd rn) s = .next (advance s) := by
  rw [exec_ldr, gate_holds _ hc, loadWord, if_neg (Bool.eq_false_iff.mp hw)]

/-- A store outside the window only advances `pc` (R45, R182). -/
theorem exec_str_outside {c : Cond} {s : State} {rn : RegIdx} (f : Bool) (rd : RegIdx)
    (hc : condHolds c s.flags = true) (hw : inWindow s.config.memBase (effAddr s rn) = false) :
    exec (.str c f rd rn) s = .next (advance s) := by
  rw [exec_str, gate_holds _ hc, storeWord, if_neg (Bool.eq_false_iff.mp hw)]

/-! ### The instructions, executed -/

/-- Settles O23: the address is in the window at word k, or outside it. The window test is over exact numbers, so
R54's constraints on the base are not needed. -/
theorem ldrExecutes : Obligations.LdrExecutes := by
  intro c f rd rn s _ hc
  refine ⟨fun k hk haddr => ?_, fun haddr => exec_ldr_outside f rd hc (inWindow_eq_false_of_toNat haddr)⟩
  obtain ⟨hw, hindex⟩ := inWindow_wordIndex_of_toNat (addr := effAddr s rn) hk haddr
  rw [exec_ldr_inWindow f rd hc hw, memRead, hindex]
  rfl

/-- Settles O24: as for the load; in the window, the new memory is the old one with word k written. -/
theorem strExecutes : Obligations.StrExecutes := by
  intro c f rd rn s _ hm hc
  refine ⟨fun k hk haddr => ?_, fun haddr => exec_str_outside f rd hc (inWindow_eq_false_of_toNat haddr)⟩
  obtain ⟨hw, hindex⟩ := inWindow_wordIndex_of_toNat (addr := effAddr s rn) hk haddr
  refine ⟨Memory.write s.mem k (rdreg s rd), Memory.write_wf hm hk _, Memory.read_write hm k _, ?_⟩
  rw [exec_str_inWindow f rd hc hw, memWrite, hindex]
  rfl

end Sys2Proof.Machine

end

section
/-! The Program Resolver (R190 to R193, R196), branches that are taken and branches that fall through (R194), and what
stays fixed from RUN on (R27, R55, R193). -/

namespace Sys2Proof.Machine

open Sys2Proof Host

/-! ### The branch `BEQ` -/

/-- An instruction whose effect is to advance only advances, whether its condition holds or not (R123). -/
theorem exec_of_effect_eq_advance {i : Instr} {s : State} (h : effect i s = advance s) :
    exec i s = .next (advance s) := by
  rw [exec_eq_gate, gate, h, ite_self]

/-- Settles O26: the condition of `BEQ` is the test of `Z` that the branch makes again. -/
theorem beqTakenIffZeroAndTarget : Obligations.BeqTakenIffZeroAndTarget := by
  intro f l s
  refine ⟨fun k hk hz => ?_, fun target hnot => exec_of_effect_eq_advance (congrArg (setPc s) ?_)⟩
  · rw [exec_beq, gate_holds _ (show condHolds .eq s.flags = true from hz), branchNext_taken hz hk]
    rfl
  · refine branchNext_not_taken fun ⟨k, htarget, hk, hz⟩ => ?_
    rcases hnot with hclear | hout
    · exact Bool.false_ne_true (hclear.symm.trans hz)
    · exact Nat.not_lt.mpr (hout k htarget) hk

/-! ### The resolver -/

/-- Record `j` of a program declares the text `t`, and no earlier record does (R190, R191). -/
def isFirstDeclaration (prog : List InstrRecord) (t : Text) (j : Nat) : Prop :=
  (∃ r, prog[j]? = some r ∧ r.hasLabel = true ∧ declLabel r = some t) ∧
    ∀ k, k < j → ∀ r, prog[k]? = some r → ¬ (r.hasLabel = true ∧ declLabel r = some t)

theorem declares_iff (t : Text) (r : InstrRecord) :
    declares t r = true ↔ r.hasLabel = true ∧ declLabel r = some t := by
  rw [declares, Bool.and_eq_true, decide_eq_true_iff]

/-- What the resolver finds is the first declaration of the text (R190, R191). -/
theorem findLabel_eq_some_iff {prog : List InstrRecord} {t : Text} {j : Nat} :
    findLabel prog (some t) = some j ↔ isFirstDeclaration prog t j := by
  rw [findLabel, List.findIdx?_eq_some_iff_getElem]
  constructor
  · rintro ⟨hj, hdecl, hfirst⟩
    refine ⟨⟨prog[j], List.getElem?_eq_getElem hj, (declares_iff t _).mp hdecl⟩, fun k hk r hr hrdecl => ?_⟩
    obtain ⟨_, rfl⟩ := List.getElem?_eq_some_iff.mp hr
    exact hfirst k hk ((declares_iff t _).mpr hrdecl)
  · rintro ⟨⟨r, hr, hdecl⟩, hfirst⟩
    obtain ⟨hj, rfl⟩ := List.getElem?_eq_some_iff.mp hr
    exact ⟨hj, (declares_iff t _).mpr hdecl, fun k hk hkdecl =>
      hfirst k hk _ (List.getElem?_eq_getElem (hk.trans hj)) ((declares_iff t _).mp hkdecl)⟩

/-- The resolver finds nothing exactly when no record declares the text (R192). -/
theorem findLabel_eq_none_iff {prog : List InstrRecord} {t : Text} :
    findLabel prog (some t) = none ↔ ∀ r ∈ prog, ¬ (r.hasLabel = true ∧ declLabel r = some t) := by
  simp only [findLabel, List.findIdx?_eq_none_iff, ← declares_iff, Bool.not_eq_true]

/-- Settles O38. -/
theorem firstDeclarationWins : Obligations.FirstDeclarationWins :=
  fun _ _ => ⟨fun _ => findLabel_eq_some_iff, findLabel_eq_none_iff, rfl⟩

/-- A text that may be absent is found at `j` when it is there and `j` is its first declaration (R190, R192). -/
theorem findLabel_eq_some_iff_exists {prog : List InstrRecord} {t : Option Text} {j : Nat} :
    findLabel prog t = some j ↔ ∃ l, t = some l ∧ isFirstDeclaration prog l j := by
  cases t with
  | none => simp [findLabel]
  | some l => simp [findLabel_eq_some_iff]

/-- Resolving a branch looks its target label up (R190). -/
theorem resolveRecord_target_of_branch {r : InstrRecord} (hk : r.kind = .b) (cfg : Config) (prog : List InstrRecord) :
    (resolveRecord cfg prog r).target = findLabel prog (targetLabel cfg.labelFields r) := by
  rw [resolveRecord, if_pos hk]

theorem resolveRecord_of_kind_ne_b {r : InstrRecord} (hk : r.kind ≠ .b) (cfg : Config) (prog : List InstrRecord) :
    resolveRecord cfg prog r = r :=
  if_neg hk

/-- Resolving writes no field of a record but its target (R190). -/
theorem resolveRecord_eq_with_target (cfg : Config) (prog : List InstrRecord) (r : InstrRecord) :
    resolveRecord cfg prog r = { r with target := (resolveRecord cfg prog r).target } := by
  unfold resolveRecord
  split <;> rfl

/-- Resolving leaves every record at its index. -/
theorem resolve_getElem? {prog : List InstrRecord} {i : Nat} {r : InstrRecord} (hr : prog[i]? = some r)
    (cfg : Config) : (resolve cfg prog)[i]? = some (resolveRecord cfg prog r) := by
  rw [resolve, List.getElem?_map, hr, Option.map_some]

/-- A step in RESOLVE resolves the program and goes to RUN (R190, R241). -/
theorem step_resolve {s : State} (hresolve : s.phase = .resolve) :
    step s = .next { s with prog := resolve s.config s.prog, phase := .run } := by
  rw [step, hresolve, resolveStep]

/-- Settles O39: each clause about a record of the resolved program is one about `resolveRecord`. -/
theorem resolveWritesOnlyTargets : Obligations.ResolveWritesOnlyTargets := by
  refine ⟨fun _ => step_resolve, fun cfg prog => ?_⟩
  refine ⟨resolve_length cfg prog, fun i r hr => ?_, resolve_resolve cfg prog⟩
  refine ⟨resolveRecord cfg prog r, resolve_getElem? hr cfg, resolveRecord_eq_with_target cfg prog r,
    fun hk j => ?_, fun hk j => ?_, fun hk => resolveRecord_of_kind_ne_b hk cfg prog⟩ <;>
    rw [resolveRecord_target_of_branch hk]
  · exact findLabel_eq_some_iff_exists
  · exact findLabel_lt

/-! ### Unresolved branches -/

/-- A branch whose label nothing declares, or that has none, gets no target (R192). -/
theorem resolveRecord_target_eq_none {cfg : Config} {prog : List InstrRecord} {r : InstrRecord} (hk : r.kind = .b)
    (h : ∀ l, targetLabel cfg.labelFields r = some l → ∀ d ∈ prog, ¬ (d.hasLabel = true ∧ declLabel d = some l)) :
    (resolveRecord cfg prog r).target = none := by
  rw [resolveRecord_target_of_branch hk]
  cases hl : targetLabel cfg.labelFields r with
  | none => rfl
  | some l => exact findLabel_eq_none_iff.mpr (h l hl)

/-- The effect of a branch record, `B` or `BEQ`, is to set `pc` by its target (R194). -/
theorem effect_instr_of_branch {r : InstrRecord} (hk : r.kind = .b) (s : State) :
    effect r.instr s = setPc s (branchNext r.target s) := by
  by_cases hc : r.cond = .eq <;> simp only [InstrRecord.instr, hk, hc, if_true, if_false] <;> rfl

/-- Settles O40: the record has no target after RESOLVE, and RUN is at that record. -/
theorem unresolvedBranchFallsThrough : Obligations.UnresolvedBranchFallsThrough := by
  intro s t r hresolve hstep hr hk hundeclared
  rw [step_resolve hresolve] at hstep
  obtain rfl := Outcome.next.inj hstep
  have hk' : (resolveRecord s.config s.prog r).kind = .b := by
    rw [resolveRecord_eq_with_target]
    exact hk
  have hexec := exec_of_effect_eq_advance (i := (resolveRecord s.config s.prog r).instr)
    (s := { s with prog := resolve s.config s.prog, phase := .run })
    (by rw [effect_instr_of_branch hk', resolveRecord_target_eq_none hk hundeclared]; rfl)
  exact ⟨_, step_of_exec rfl (resolve_getElem? hr s.config) hexec, rfl, rfl, rfl, rfl⟩

/-! ### From RUN on -/

/-- Settles O41: RUN executes a record or ends the run, and HALT changes nothing. -/
theorem programFixedInRun : Obligations.ProgramFixedInRun := by
  intro s t hphase h
  rcases hphase with hrun | hhalt
  · cases hfetch : s.prog[s.pc]? with
    | none =>
      rw [step_past_end hrun (List.getElem?_eq_none_iff.mp hfetch)] at h
      obtain rfl := Outcome.next.inj h
      exact ⟨rfl, rfl, rfl, .inr rfl⟩
    | some r =>
      obtain ⟨u, hu, rfl⟩ := step_at_record hrun hfetch h
      obtain ⟨hconfig, hphase, hinput, hprog, -⟩ := exec_keeps hu
      exact ⟨hprog, hconfig, hinput, .inl hphase⟩
  · rw [step_halt hhalt] at h
    obtain rfl := Outcome.next.inj h
    exact ⟨rfl, rfl, rfl, .inl rfl⟩

end Sys2Proof.Machine

end

section
/-! `NOP` (R205) and the invalid kind (R206, R207): instructions without an effect of their own. -/

namespace Sys2Proof.Machine

open Sys2Proof Host

/-- Settles O27: the effect of either instruction is to advance, so the outcome of its condition is not seen; a
labelled invalid record, which skips the condition check, is no exception. -/
theorem nopAndInvalidOnlyAdvance : Obligations.NopAndInvalidOnlyAdvance := by
  intro c f hl s
  have hnop : effect (.nop c f) s = advance s := rfl
  have hinvalid : effect (.invalid hl c) s = advance s := rfl
  exact ⟨exec_of_effect_eq_advance hnop, exec_of_effect_eq_advance hinvalid⟩

end Sys2Proof.Machine

end

section
/-! The phases from the start of a run to RUN (R95, R241), and the phases that never stop (R220). -/

namespace Sys2Proof.Machine

open Sys2Proof Host

/-! ### No stop outside LOAD -/

/-- Settles O56: only LOAD looks at lines, and a fault would need an element of an empty type. -/
theorem nothingStops : Obligations.NothingStops :=
  ⟨exec_continues, fun _ hphase => step_continues fun hload => absurd hload hphase, fun _ x => nomatch x⟩

/-! ### From LOAD to RUN -/

/-- A run in LOAD spends one step on each line and then goes on with every line decoded, in line order (R95, R241). -/
theorem core_run_load_lines {s : State} {lines : List Text} (hload : s.phase = .load) (hinput : s.input = lines)
    (hlines : ∀ l ∈ lines, lineProblem l = none) (k : Nat) :
    Host.Core.run Sys2Proof.core (lines.length + k) s =
      Host.Core.run Sys2Proof.core k
        { s with input := [], prog := s.prog ++ lines.map (decodeLine s.config) } := by
  induction lines generalizing s with
  | nil => rw [List.length_nil, Nat.zero_add, List.map_nil, List.append_nil, ← hinput]
  | cons line rest ih =>
    obtain ⟨hline, hrest⟩ := List.forall_mem_cons.mp hlines
    obtain ⟨-, hdecode, -⟩ := loadStepAppendsRecord s hload
    rw [List.length_cons, Nat.add_right_comm, core_run_next (hdecode line rest hinput hline),
      ih (s := { s with input := rest, prog := s.prog ++ [decodeLine s.config line] }) hload rfl hrest,
      List.append_assoc, List.singleton_append, List.map_cons]

/-- With no line left, LOAD gives way to RESOLVE and RESOLVE to RUN (R241). -/
theorem core_run_load_end {s : State} (hload : s.phase = .load) (hinput : s.input = []) :
    Host.Core.run Sys2Proof.core 2 s = .next { s with phase := .run, prog := resolve s.config s.prog } := by
  obtain ⟨hlast, -, -⟩ := loadStepAppendsRecord s hload
  rw [core_run_next (hlast hinput), core_run_next (step_resolve rfl)]
  rfl

/-- Settles O55: one step for each line, and two more. -/
theorem wholeProgramLoads : Obligations.WholeProgramLoads := by
  intro cfg lines hlines
  exact (core_run_load_lines (s := State.start cfg lines) rfl rfl hlines 2).trans (core_run_load_end rfl rfl)

end Sys2Proof.Machine

end
